-- ==== Sys2Proof/Word.lean ====
section
/-! DEFINITION. The word types of YABE-CORE: bytes, 32-bit and 256-bit words, fixed byte sequences (R7). -/

namespace Sys2Proof

/-- A byte: 8 bits, bit 0 least significant (R7). -/
abbrev Byte := BitVec 8

/-- A 32-bit register or command word. -/
abbrev Word := BitVec 32

/-- A 256-bit register: a target, a quotient or a remainder (`TARGET_W`, R6). -/
abbrev Word256 := BitVec 256

/-- A register that holds `n` bytes in wire order, index 0 first on the wire (R7, R29, R111). -/
abbrev Bytes (n : Nat) := Vector Byte n

end Sys2Proof
end

