-- ==== Sys2Proof/Config.lean ====
section
/-! DEFINITION. The parameters of rule R6: the fixed ones as numbers, the open ones and the values the spec
leaves unspecified as constants without a body. -/

namespace Sys2Proof

/-- `HDR_LEN`: bytes of a record that form the header (R6). -/
abbrev Config.hdrLen : Nat := 80

/-- `MARK_LEN`: bytes of the start-of-record marker (R6). -/
abbrev Config.markLen : Nat := 4

/-- `SIZE_LEN`: bytes of the size field (R6). -/
abbrev Config.sizeLen : Nat := 4

/-- `EXP_MIN`: least legal exponent byte (R6, R194). -/
abbrev Config.expMin : Nat := 3

/-- `EXP_MAX`: greatest legal exponent byte (R6, R195). -/
abbrev Config.expMax : Nat := 32

/-- `GENESIS_TARGET`, register 32, a wired constant: 8 hex zeros, then 56 hex F (R30, R33). -/
def Config.genesisTarget : Word256 :=
  0x00000000FFFFFFFFFFFFFFFFFFFFFFFFFFFFFFFFFFFFFFFFFFFFFFFFFFFFFFFF#256

/-- `GENESIS_TARGET_TRUNCATED`, register 33, a wired constant: 8 hex zeros, `FFFF`, 52 hex zeros (R31, R33). -/
def Config.genesisTargetTruncated : Word256 :=
  0x00000000FFFF0000000000000000000000000000000000000000000000000000#256

/-- The two values of the open parameter `HEX_CASE` (R6, D10). -/
inductive HexCase where
  | lower
  | upper
  deriving DecidableEq, Repr, Inhabited

/-- The open parameter `HEX_CASE` (R6, R200, U11). DESIGN CHOICE: no value is chosen. Safe: log entry 7. -/
opaque Config.hexCase : HexCase

/-- The open parameter `DEC_RENDER` before the constraint of R201 is put on it: the characters some renderer
gives for numerator and denominator (U12). DESIGN CHOICE: no value is chosen. Log entry 8. -/
opaque Config.decRenderRaw : Nat → Nat → List Char

/-- What an integer register of `w` bits that R42 leaves unspecified holds after the `epoch`-th return to the
reset values (U2). `reg` tells the registers apart. DESIGN CHOICE: free value, safe: log entry 6. That two instances
with equal counters hold equal values is the model's: DESIGN CHOICE, unsafe, log entry 25. -/
opaque Config.unspecBits (w : Nat) : (reg epoch : Nat) → BitVec w

/-- The same for a register of `n` bytes. DESIGN CHOICE: log entries 6 and 25. -/
opaque Config.unspecBytes (n : Nat) : (reg epoch : Nat) → Bytes n

/-- The same for a register taken as a natural number (`PAYLOAD_POS`). DESIGN CHOICE: log entries 6 and 25. -/
opaque Config.unspecNat : (reg epoch : Nat) → Nat

/-- What HD.PAY would write with `LEN` below 80, where R167 states no result. DESIGN CHOICE: free value.
Safe: log entry 12. -/
opaque Config.shortPayloadLen : Word → Word

end Sys2Proof
end

