-- ==== Sys2Proof/Syntax.lean ====
section
/-! DEFINITION. The operations of YABE-CORE (one constructor per row of spec/opcode_table.json), what selects
them (R104), and the notation for input streams (R108). -/

namespace Sys2Proof

/-- The 22 operations of R104. None has an operand field: the bytes they work on are data. -/
inductive Instr where
  /-- FR.MARK, R131. -/
  | frMark
  /-- FR.SIZE, R132. -/
  | frSize
  /-- FR.DATA, R133. -/
  | frData
  /-- FR.NEXT, R134. -/
  | frNext
  /-- HD.CHK, R160. -/
  | hdChk
  /-- HD.VER, R161. -/
  | hdVer
  /-- HD.PREV, R162. -/
  | hdPrev
  /-- HD.MRKL, R163. -/
  | hdMrkl
  /-- HD.TIME, R164. -/
  | hdTime
  /-- HD.BITS, R165. -/
  | hdBits
  /-- HD.NONCE, R166. -/
  | hdNonce
  /-- HD.PAY, R167. -/
  | hdPay
  /-- DF.UNPK, R190. -/
  | dfUnpk
  /-- DF.TGT, R191. -/
  | dfTgt
  /-- DF.PDIF, R196. -/
  | dfPdif
  /-- DF.BDIF, R197. -/
  | dfBdif
  /-- DF.HEX, R200. -/
  | dfHex
  /-- DF.DEC, R201. -/
  | dfDec
  /-- OUT.EMIT, R230. -/
  | outEmit
  /-- CMD.START, R233. -/
  | cmdStart
  /-- CMD.NEXT, R234. -/
  | cmdNext
  /-- CMD.ABORT, R235. -/
  | cmdAbort
  deriving DecidableEq, Repr

/-- What selects an operation: the column "selected by" of R104. -/
inductive Selector where
  /-- The value of `PH` and the place in the phase's group of operations, counted from 0 (R23, R104). -/
  | sequencer (phase : BitVec 4) (slot : Nat)
  /-- The 32-bit word HOST writes to `CMD` (F-CMD, R106). -/
  | command (word : Word)
  /-- CMD.NEXT has been accepted (R134, R234). -/
  | acceptedNext
  /-- The entry to `PH` = EMIT, inside the step of DF.BDIF, and the place in that group (R230). -/
  | emission (slot : Nat)
  /-- HOST renders the ratios; the hardware does not (R201). -/
  | collaborator
  deriving DecidableEq, Repr

/-- The fields of a block header (F-HDR, R96), each of the type R29 gives its register. -/
structure HeaderFields where
  version : Word
  prevHash : Bytes 32
  merkleRoot : Bytes 32
  timestamp : Word
  bits : Bytes 4
  nonce : Word
  deriving DecidableEq, Repr

/-- A compact target (F-CMP, R98): exponent byte and 24-bit mantissa. -/
structure Compact where
  exponent : BitVec 8
  mantissa : BitVec 24
  deriving DecidableEq, Repr

/-- A framed record (F-REC, R91): marker and data; the size field is the length of the data (R93). -/
structure Frame where
  marker : Bytes 4
  data : List Byte
  deriving DecidableEq, Repr

/-- `HDR` of the stream notation (R108): numbers and hex bytes as written, not yet checked. -/
structure HeaderText where
  version : Nat
  prev : List Byte
  merkle : List Byte
  time : Nat
  bits : List Byte
  nonce : Nat
  deriving DecidableEq, Repr

/-- `part` of the stream notation (R108). -/
inductive PartText where
  | hdr (h : HeaderText)
  | bytes (b : List Byte)
  | fill (b : Byte) (n : Nat)
  deriving DecidableEq, Repr

/-- The `size=` of a record: a stated integer, which may differ from the data's length on purpose, or `auto` (R109). -/
inductive SizeText where
  | value (n : Int)
  | auto
  deriving DecidableEq, Repr

/-- `item` of the stream notation (R108). -/
inductive ItemText where
  | record (marker : List Byte) (size : SizeText) (parts : List PartText)
  | raw (b : List Byte)
  deriving DecidableEq, Repr

/-- `stream` of the notation: any number of items (R108). -/
abbrev StreamText := List ItemText

end Sys2Proof
end

