-- ==== Sys2Proof/WellFormed.lean ====
section
/-! DEFINITION. Which terms of Syntax are well formed: selectors that name an operation's place (R23, R104), and
stream texts whose numbers and hex bytes have the lengths the grammar of R108 asks for. -/

namespace Sys2Proof

/-- How many operations the group of a phase has, by the phase's number (R23): HDEC eight, TGT two, the other run
phases one; a wait state and a value never taken have none. -/
def groupSizeOfCode (phase : BitVec 4) : Nat :=
  match phase.toNat with
  | 1 => 1
  | 2 => 1
  | 3 => 1
  | 4 => 8
  | 5 => 2
  | 6 => 1
  | 7 => 1
  | _ => 0

/-- An operation has no operand field, so every operation is well formed (R104). -/
def Instr.wellFormed (_ : Instr) : Bool := true

/-- A selector is well formed when it names the place of an operation (R104, R106). -/
def Selector.wellFormed : Selector → Bool
  | .sequencer phase slot => decide (slot < groupSizeOfCode phase)
  | .command word => decide (1 ≤ word.toNat) && decide (word.toNat ≤ 3)
  | .acceptedNext => true
  | .emission slot => decide (slot < 2)
  | .collaborator => true

/-- `HDR`: `u32` numbers below 2^32, 32 bytes for each hash, 4 bytes for bits (R108). -/
def HeaderText.wellFormed (h : HeaderText) : Bool :=
  decide (h.version < 2 ^ 32) && decide (h.time < 2 ^ 32) && decide (h.nonce < 2 ^ 32)
    && h.prev.length == 32 && h.merkle.length == 32 && h.bits.length == 4

/-- A part is well formed when its header is. -/
def PartText.wellFormed : PartText → Bool
  | .hdr h => h.wellFormed
  | .bytes _ => true
  | .fill _ _ => true

/-- A record's marker is four bytes and its parts are well formed (R108). -/
def ItemText.wellFormed : ItemText → Bool
  | .record marker _ parts => marker.length == 4 && parts.all PartText.wellFormed
  | .raw _ => true

/-- A stream text is well formed when every item is. -/
def StreamText.wellFormed (t : StreamText) : Bool := t.all ItemText.wellFormed

end Sys2Proof
end

