-- ==== Sys2Proof/Decode.lean ====
section
/-! DEFINITION. Decoding, total and rejecting by name, of what selects an operation (R23, R104, R106) and of the
data formats F-REC, F-HDR, F-CMP (R91, R96, R98); after it the encoders of the same formats (R109, R169). -/

namespace Sys2Proof

/-! ## Conversions between bytes and integers (R8) -/

/-- `le_uint`: the first byte on the wire is the least significant (R8). -/
def leUint : List Byte → Nat
  | [] => 0
  | b :: bs => b.toNat + 256 * leUint bs

/-- `le_bytes(v, n)`: the `n` bytes whose `le_uint` is `v`, for `v < 256^n` (R8). -/
def leBytes (v : Nat) : Nat → List Byte
  | 0 => []
  | n + 1 => BitVec.ofNat 8 v :: leBytes (v / 256) n

/-- `le_sint32`: two's complement of four little-endian bytes (R8, R102). -/
def leSint32 (b : List Byte) : Int :=
  if leUint b < 2 ^ 31 then (leUint b : Int) else (leUint b : Int) - 2 ^ 32

/-- An unsigned 32-bit field assembled from four bytes (R101). -/
def leWord (b : Bytes 4) : Word := BitVec.ofNat 32 (leUint b.toList)

/-- The `n` bytes of a sequence that has exactly `n`; a missing byte, which no caller leaves, is 0. -/
def toBytes (n : Nat) (b : List Byte) : Bytes n := Vector.ofFn fun i => b.getD i 0

/-- `buf[o:o+n)` of an 80-byte header buffer (R7, R65). -/
def slice (h : Bytes 80) (o n : Nat) (inside : o + n ≤ 80) : Bytes n :=
  Vector.ofFn fun i => h[o + i.val]

/-! ## The data formats -/

/-- F-HDR: the six fields at their fixed offsets (R96, R101, R111). -/
def decodeHeader (h : Bytes 80) : HeaderFields where
  version := leWord (slice h 0 4 (by decide))
  prevHash := slice h 4 32 (by decide)
  merkleRoot := slice h 36 32 (by decide)
  timestamp := leWord (slice h 68 4 (by decide))
  bits := slice h 72 4 (by decide)
  nonce := leWord (slice h 76 4 (by decide))

/-- F-CMP: the exponent is the last byte on the wire, the mantissa `le_uint` of the first three, its sign bit an
ordinary bit (R98, R103, R190, R193). -/
def decodeCompact (bits : Bytes 4) : Compact where
  exponent := bits[3]
  mantissa := BitVec.ofNat 24 (leUint [bits[0], bits[1], bits[2]])

/-- Why bytes do not begin with a complete record frame (R93, R95). -/
inductive FrameError where
  /-- Fewer than four bytes for the marker. -/
  | markShort
  /-- Fewer than four bytes for the size field. -/
  | sizeShort
  /-- The size field is negative. -/
  | negSize
  /-- Fewer bytes than the size field says. -/
  | dataShort
  deriving DecidableEq, Repr

/-- F-REC: the first record of a byte sequence and the bytes after it, total on any bytes (R91, R93). Any marker
is accepted (R94). -/
def decodeFrame (b : List Byte) : Except FrameError (Frame × List Byte) :=
  if b.length < 4 then .error .markShort
  else if b.length < 8 then .error .sizeShort
  else
    let size := leSint32 ((b.drop 4).take 4)
    if size < 0 then .error .negSize
    else if b.length - 8 < size.toNat then .error .dataShort
    else .ok ({ marker := toBytes 4 (b.take 4), data := (b.drop 8).take size.toNat },
              (b.drop 8).drop size.toNat)

/-! ## The selection of an operation -/

/-- Why a selector names no operation. -/
inductive DecodeError where
  /-- `CMD` value 0: no operation (R106). -/
  | noOperation
  /-- `CMD` value above 3: reserved, no operation (R106). -/
  | reservedCommand (word : Word)
  /-- The phase is a wait state: CORE has no operation to perform (R23). -/
  | waitState (phase : BitVec 4)
  /-- Phase values 11 to 15 are never taken (R23). -/
  | neverTaken (phase : BitVec 4)
  /-- The phase's group has no operation at this place (R104). -/
  | noSuchPlace (slot : Nat)
  deriving DecidableEq, Repr

/-- F-CMD: all 32 bits are compared (R106). -/
def decodeCommand (word : Word) : Except DecodeError Instr :=
  match word.toNat with
  | 0 => .error .noOperation
  | 1 => .ok .cmdStart
  | 2 => .ok .cmdNext
  | 3 => .ok .cmdAbort
  | _ => .error (.reservedCommand word)

/-- The operation the sequencer performs in a phase, at a place of the phase's group (R23, R104). -/
def decodePhase (phase : BitVec 4) (slot : Nat) : Except DecodeError Instr :=
  match phase.toNat, slot with
  | 1, 0 => .ok .frMark
  | 2, 0 => .ok .frSize
  | 3, 0 => .ok .frData
  | 4, 0 => .ok .hdChk
  | 4, 1 => .ok .hdVer
  | 4, 2 => .ok .hdPrev
  | 4, 3 => .ok .hdMrkl
  | 4, 4 => .ok .hdTime
  | 4, 5 => .ok .hdBits
  | 4, 6 => .ok .hdNonce
  | 4, 7 => .ok .hdPay
  | 5, 0 => .ok .dfUnpk
  | 5, 1 => .ok .dfTgt
  | 6, 0 => .ok .dfPdif
  | 7, 0 => .ok .dfBdif
  | 0, _ => .error (.waitState phase)
  | 8, _ => .error (.waitState phase)
  | 9, _ => .error (.waitState phase)
  | 10, _ => .error (.waitState phase)
  | 1, n | 2, n | 3, n | 4, n | 5, n | 6, n | 7, n => .error (.noSuchPlace n)
  | _, _ => .error (.neverTaken phase)

/-- The operations performed on entry to EMIT: OUT.EMIT, with DF.HEX inside it (R230). -/
def decodeEmission (slot : Nat) : Except DecodeError Instr :=
  match slot with
  | 0 => .ok .outEmit
  | 1 => .ok .dfHex
  | n => .error (.noSuchPlace n)

/-- Decoding of a selector, total (R104). -/
def decode : Selector → Except DecodeError Instr
  | .sequencer phase slot => decodePhase phase slot
  | .command word => decodeCommand word
  | .acceptedNext => .ok .frNext
  | .emission slot => decodeEmission slot
  | .collaborator => .ok .dfDec

/-- The instruction read from a word of the opcode table, numbered as the table numbers its bits. Only F-CMD has
opcode bits (R104, R106): 32 of them, all compared. The operations without opcode bits are selected by the
sequencer, not by a word (log entry 16). -/
def decodeTableWord (nbits w : Nat) : Option Instr :=
  if w % 2 ^ nbits < 2 ^ 32 then
    match decodeCommand (BitVec.ofNat 32 (w % 2 ^ nbits)) with
    | .ok i => some i
    | .error _ => none
  else none

/-! ## The encoders -/

/-- What selects an operation (R104, R106). -/
def encode : Instr → Selector
  | .frMark => .sequencer 1 0
  | .frSize => .sequencer 2 0
  | .frData => .sequencer 3 0
  | .frNext => .acceptedNext
  | .hdChk => .sequencer 4 0
  | .hdVer => .sequencer 4 1
  | .hdPrev => .sequencer 4 2
  | .hdMrkl => .sequencer 4 3
  | .hdTime => .sequencer 4 4
  | .hdBits => .sequencer 4 5
  | .hdNonce => .sequencer 4 6
  | .hdPay => .sequencer 4 7
  | .dfUnpk => .sequencer 5 0
  | .dfTgt => .sequencer 5 1
  | .dfPdif => .sequencer 6 0
  | .dfBdif => .sequencer 7 0
  | .dfHex => .emission 1
  | .dfDec => .collaborator
  | .outEmit => .emission 0
  | .cmdStart => .command 1
  | .cmdNext => .command 2
  | .cmdAbort => .command 3

/-- `Encode` of R169: the six fields back in their byte ranges. -/
def encodeHeader (f : HeaderFields) : List Byte :=
  leBytes f.version.toNat 4 ++ f.prevHash.toList ++ f.merkleRoot.toList
    ++ leBytes f.timestamp.toNat 4 ++ f.bits.toList ++ leBytes f.nonce.toNat 4

/-- F-CMP written back to its four wire bytes (R98, R99). -/
def encodeCompact (c : Compact) : Bytes 4 :=
  toBytes 4 (leBytes c.mantissa.toNat 3 ++ [c.exponent])

/-- A record frame: marker, the data's length little-endian, data (R91, R109 with `size=auto`). -/
def encodeFrame (f : Frame) : List Byte :=
  f.marker.toList ++ leBytes f.data.length 4 ++ f.data

/-- `HDR` of the notation (R109). -/
def HeaderText.expand (h : HeaderText) : List Byte :=
  leBytes h.version 4 ++ h.prev ++ h.merkle ++ leBytes h.time 4 ++ h.bits ++ leBytes h.nonce 4

/-- The expansions of the parts (R109). -/
def PartText.expand : PartText → List Byte
  | .hdr h => h.expand
  | .bytes b => b
  | .fill b n => List.replicate n b

/-- The expansions of `REC` and `RAW` (R109): a stated size is taken modulo 2^32 and may differ from the data. -/
def ItemText.expand : ItemText → List Byte
  | .record marker size parts =>
    let data := parts.flatMap PartText.expand
    let n : Int := match size with
      | .value v => v
      | .auto => data.length
    marker ++ leBytes (n % 2 ^ 32).toNat 4 ++ data
  | .raw b => b

/-- The bytes a stream text stands for (R108, R109). -/
def StreamText.expand (t : StreamText) : List Byte := t.flatMap ItemText.expand

end Sys2Proof
end

