-- ==== Sys2Proof/Machine/State.lean ====
section
/-! DEFINITION. The state of one YABE-CORE instance (R20), of the agents beside it (R10), and the state after
reset (R42). -/

namespace Sys2Proof.Machine

/-- The sequencer's phase, the values of `PH` (R23). -/
inductive Phase where
  | idle
  | mark
  | size
  | data
  | hdec
  | tgt
  | pdif
  | bdif
  | emit
  | fault
  | done
  deriving DecidableEq, Repr

/-- The causes of the hardware's errors, one per row of R261. These errors are trap entries (R270): the machine
goes on to the phase FAULT, so they are next states and not faults of the model. -/
inductive Cause where
  | markShort
  | sizeShort
  | dataShort
  | negSize
  | truncated
  | expLow
  | expHigh
  | divPdif
  | divBdif
  deriving DecidableEq, Repr

/-- The working latches `W_*` (R28). -/
structure Latches where
  version : Word
  prevHash : Bytes 32
  merkleRoot : Bytes 32
  timestamp : Word
  bits : Bytes 4
  nonce : Word
  payloadLen : Word
  exp : BitVec 8
  mant : BitVec 24
  target : Word256
  pq : Word256
  pr : Word256
  bq : Word256
  br : Word256
  deriving DecidableEq, Repr

/-- The result registers, numbers 16 to 30 (R29). -/
structure Results where
  version : Word
  prevHash : Bytes 32
  merkleRoot : Bytes 32
  timestamp : Word
  bitsRaw : Bytes 4
  bitsU32 : Word
  nonce : Word
  target : Word256
  targetHex : Bytes 66
  pdiffQ : Word256
  pdiffR : Word256
  bdiffQ : Word256
  bdiffR : Word256
  payloadLen : Word
  payloadPos : Nat
  deriving DecidableEq, Repr

/-- The error registers `ERR_CODE`, `ERR_SUB`, `ERR_POS`, `ERR_REC` (R37, R38). -/
structure ErrorRegs where
  code : BitVec 8
  sub : BitVec 8
  pos : Nat
  record : Nat
  deriving DecidableEq, Repr

/-- A value answered to a HOST register read (R20, R237): an unsigned or a signed integer of the register's width,
or bytes in wire order. -/
inductive RegValue where
  | uint (width value : Nat)
  | sint (width : Nat) (value : Int)
  | bytes (b : List Byte)
  deriving DecidableEq, Repr

/-- What an agent outside CORE does, or that CORE takes its turn (R10, R11). -/
inductive Input where
  /-- CORE performs its next operation before the next input is taken. -/
  | core
  /-- HOST writes a register of the REGISTER space (R60, R237). -/
  | hostWrite (reg : BitVec 6) (value : Word)
  /-- HOST reads a register (R237). -/
  | hostRead (reg : BitVec 6)
  /-- HOST renders the two ratios it holds as decimal strings (R201). -/
  | hostRender
  /-- The reset input `rst` is asserted and released (R300). -/
  | rst
  /-- The environment binds a stream with these bytes ready; `ended` says that its end-of-stream indication follows
  them (R303). -/
  | bind (bytes : List Byte) (ended : Bool)
  /-- STREAM offers its next byte (R78). -/
  | deliver (b : Byte)
  /-- STREAM gives its end-of-stream indication (R78). -/
  | endOfStream
  deriving DecidableEq, Repr

/-- Why the machine stops with a fault. The hardware's own errors are not here (see `Cause`). -/
inductive Fault where
  /-- Raised by FR.DATA performed with a negative `SIZE`: `MemRead` is defined for `n ≥ 0` only (R62), so the spec
  gives no effect. No run reaches it, because FR.SIZE traps first (R132). Safe: log entry 11. -/
  | negativeReadLength
  deriving DecidableEq, Repr

/-- Why a step has no meaning in this model. -/
inductive Refusal where
  /-- Raised by `exec` for an instruction whose meaning is not written. Safe. -/
  | notModelled (mnemonic : String)
  /-- Raised by a HOST read of result register `reg`, or by a rendering of the results (`reg` 25), while
  `STATUS.RDY` = 0: the spec has a model refuse it (R32, U1). Safe: log entry 13. -/
  | resultNotReady (reg : BitVec 6)
  /-- Raised when the environment binds a stream during a run that already has one: outside the model's domain
  (R74, R77, U6). Safe: log entry 14. -/
  | streamInUse
  /-- Raised when STREAM offers a byte after its end-of-stream indication: not a finite sequence (R61, R78).
  Safe: log entry 14. -/
  | byteAfterEnd
  deriving DecidableEq, Repr

/-- The state of one instance and of the agents beside it (R20, R40). `STATUS` but for its TERM bit and `attn` are
functions of `ph` (R36); `CMD` holds no state (R35); the two constants are wired (R33). -/
structure State where
  /-- `PH` (R23). -/
  ph : Phase
  /-- Which operation of the phase's group CORE performs next (R11, R23). The model's own field: log entry 2. -/
  slot : Nat
  /-- `POS`, the stream read position (R21). -/
  pos : Nat
  /-- `REC_IDX` (R22). -/
  recIdx : Nat
  /-- `REC_START` (R22). -/
  recStart : Nat
  /-- `MARKER` (R24). -/
  marker : Bytes 4
  /-- `SIZE`, signed (R25). -/
  size : Word
  /-- `LEN`, unsigned (R26). -/
  len : Word
  /-- `HBUF` (R27). -/
  hbuf : Bytes 80
  /-- The working latches `W_*` (R28). -/
  w : Latches
  /-- The result registers (R29). -/
  res : Results
  /-- The error registers (R37, R38). -/
  err : ErrorRegs
  /-- `STATUS.TERM` (R36). -/
  term : Bool
  /-- `CTRL` (R34). -/
  ctrl : Word
  /-- STREAM's state: the bytes it has offered and CORE has not consumed, the first at address `POS` (R40, R62). -/
  unread : List Byte
  /-- STREAM's state: its end-of-stream indication follows the bytes in `unread` (R78). -/
  eos : Bool
  /-- What the agents outside CORE do next, first first. The model's own field: log entry 3. -/
  inputs : List Input
  /-- The value answered to HOST's last register read. The model's own field: log entry 13. -/
  hostData : Option RegValue
  /-- The decimal strings of pdifficulty and bdifficulty HOST rendered last. The model's own field: log entry 9. -/
  decimals : Option (List Char × List Char)
  /-- How often the machine has gone back to its reset values. The model's own field: log entry 6. -/
  epoch : Nat
  deriving DecidableEq, Repr

/-- What the sequencer finds to do in a state: an operation to perform in a state, or a step already settled. -/
inductive Fetched where
  | run (i : Instr) (s : State)
  | settled (o : Host.Outcome State Fault Refusal)

/-- `n` zero bytes. -/
def zeroBytes (n : Nat) : Bytes n := Vector.replicate n 0

/-- Error registers with no error held (R37, R38). -/
def ErrorRegs.none : ErrorRegs := { code := 0, sub := 0, pos := 0, record := 0 }

/-- The machine right after reset (R42, R300). The registers R42 calls unspecified are named zero here: DESIGN
CHOICE, unsafe, log entry 5. The fields that are not CORE's are empty: DESIGN CHOICE, log entry 17. -/
def State.reset : State where
  ph := .idle
  slot := 0
  pos := 0
  recIdx := 0
  recStart := 0
  marker := zeroBytes 4
  size := 0
  len := 0
  hbuf := zeroBytes 80
  w :=
    { version := 0, prevHash := zeroBytes 32, merkleRoot := zeroBytes 32, timestamp := 0, bits := zeroBytes 4,
      nonce := 0, payloadLen := 0, exp := 0, mant := 0, target := 0, pq := 0, pr := 0, bq := 0, br := 0 }
  res :=
    { version := 0, prevHash := zeroBytes 32, merkleRoot := zeroBytes 32, timestamp := 0, bitsRaw := zeroBytes 4,
      bitsU32 := 0, nonce := 0, target := 0, targetHex := zeroBytes 66, pdiffQ := 0, pdiffR := 0, bdiffQ := 0,
      bdiffR := 0, payloadLen := 0, payloadPos := 0 }
  err := ErrorRegs.none
  term := false
  ctrl := 0
  unread := []
  eos := false
  inputs := []
  hostData := Option.none
  decimals := Option.none
  epoch := 0

end Sys2Proof.Machine
end

