-- ==== Sys2Proof/Machine/Decimal.lean ====
section
/-! DEFINITION. The open parameter `DEC_RENDER` under the one constraint R201 puts on it: when a ratio has a finite
decimal expansion, its text denotes the ratio exactly. -/

namespace Sys2Proof.Machine

/-- The least number of places after the point of the decimal expansion of `n/d`, when it is finite (R201). For
`d > 0` a finite expansion needs at most `log2 d` places. -/
def decimalPlaces (n d : Nat) : Option Nat :=
  (List.range (d.log2 + 1)).find? fun k => n * 10 ^ k % d == 0

/-- The number written by decimal digits after the digits already read as `acc`; none at any other character. -/
def readDigits (acc : Nat) : List Char → Option Nat
  | [] => some acc
  | c :: cs => if c.isDigit then readDigits (acc * 10 + (c.toNat - '0'.toNat)) cs else none

/-- The value of a plain decimal numeral, digits with at most one point inside: the digits as one number, and how
many of them stand after the point. PRESUMED notation: log entry 8. -/
def decimalValue (text : List Char) : Option (Nat × Nat) :=
  let whole := text.takeWhile (· != '.')
  match whole, text.dropWhile (· != '.') with
  | [], _ => none
  | _, [] => (readDigits 0 whole).map fun v => (v, 0)
  | _, [_] => none
  | _, _ :: fraction => (readDigits 0 (whole ++ fraction)).map fun v => (v, fraction.length)

/-- The text denotes exactly `n/d` (R198: equality of rationals). -/
def denotes (text : List Char) (n d : Nat) : Bool :=
  match decimalValue text with
  | some (v, k) => v * d == n * 10 ^ k
  | none => false

/-- The last `k` decimal digits of `m`, leading zeros kept. -/
def fixedDigits : Nat → Nat → List Char
  | 0, _ => []
  | k + 1, m => fixedDigits k (m / 10) ++ [Nat.digitChar (m % 10)]

/-- The plain decimal numeral of `n/d` with `k` places, for a `k` that suffices. -/
def plainDecimal (n d k : Nat) : List Char :=
  let m := n * 10 ^ k / d
  fixedDigits (Nat.log 10 (m / 10 ^ k) + 1) (m / 10 ^ k) ++ (if k = 0 then [] else '.' :: fixedDigits k (m % 10 ^ k))

/-- `DEC_RENDER` (R201, D9): the renderer's own text, unless the expansion is finite and that text does not denote
the ratio, which R201 forbids. Log entry 8. -/
def decRender (n d : Nat) : List Char :=
  match decimalPlaces n d with
  | some k => if denotes (Config.decRenderRaw n d) n d then Config.decRenderRaw n d else plainDecimal n d k
  | none => Config.decRenderRaw n d

end Sys2Proof.Machine
end

