-- ==== Sys2Proof/Machine/Flags.lean ====
section
/-! DEFINITION. The flags: `STATUS` and `attn` (R36, R280), the phases' numbers and kinds (R23), the errors' codes
(R260, R261). There are no arithmetic condition codes (R39). -/

namespace Sys2Proof.Machine

/-- The value of `PH` that a phase stands for (R23). -/
def Phase.code : Phase → BitVec 4
  | .idle => 0
  | .mark => 1
  | .size => 2
  | .data => 3
  | .hdec => 4
  | .tgt => 5
  | .pdif => 6
  | .bdif => 7
  | .emit => 8
  | .fault => 9
  | .done => 10

/-- A run phase: CORE has an operation to perform (R23). The other phases are wait states. -/
def Phase.isRun : Phase → Bool
  | .mark | .size | .data | .hdec | .tgt | .pdif | .bdif => true
  | .idle | .emit | .fault | .done => false

/-- `CTRL.SINGLE` (R34). -/
def State.single (s : State) : Bool := s.ctrl.getLsbD 0

/-- `STATUS.RDY`: 1 exactly while `PH` = EMIT (R36). -/
def State.rdy (s : State) : Bool := s.ph == .emit

/-- `STATUS.ERR`: 1 exactly while `PH` = FAULT (R36). -/
def State.errFlag (s : State) : Bool := s.ph == .fault

/-- `STATUS.DONE`: 1 exactly while `PH` = DONE (R36). -/
def State.doneFlag (s : State) : Bool := s.ph == .done

/-- `STATUS`: PHASE in bits 3:0, RDY 4, ERR 5, TERM 6, DONE 7, bits 31:8 read as 0 (R36). -/
def State.status (s : State) : Word :=
  (s.ph.code.setWidth 32)
    ||| ((BitVec.ofBool s.rdy).setWidth 32 <<< 4)
    ||| ((BitVec.ofBool s.errFlag).setWidth 32 <<< 5)
    ||| ((BitVec.ofBool s.term).setWidth 32 <<< 6)
    ||| ((BitVec.ofBool s.doneFlag).setWidth 32 <<< 7)

/-- The output `attn` = RDY or ERR or DONE (R36, R280). -/
def State.attn (s : State) : Bool := s.rdy || s.errFlag || s.doneFlag

/-- `ERR_CODE` of a cause (R260, R261). -/
def Cause.code : Cause → BitVec 8
  | .markShort | .sizeShort | .dataShort | .negSize => 1
  | .truncated => 2
  | .expLow | .expHigh => 3
  | .divPdif | .divBdif => 4

/-- `ERR_SUB` of a cause (R261). -/
def Cause.sub : Cause → BitVec 8
  | .markShort => 1
  | .sizeShort => 2
  | .dataShort => 3
  | .negSize => 4
  | .truncated => 0
  | .expLow => 1
  | .expHigh => 2
  | .divPdif => 1
  | .divBdif => 2

/-- `STATUS.TERM` of a cause: MalformedStream is terminal, the other errors are record-scoped (R260, R270). -/
def Cause.terminal (c : Cause) : Bool := c.code == 1

end Sys2Proof.Machine
end

