-- ==== Sys2Proof/Machine/Operands.lean ====
section
/-! DEFINITION. The operand forms: fields of the header buffer (R65, R101, R111), the signed size (R102), the
compact target (R98), the integer functions of the difficulty unit (R8, R191, R205) and the text of a target (R200). -/

namespace Sys2Proof.Machine

/-- `buf[o:o+n)`, raw bytes in wire order (R65, R111). -/
def State.bufBytes (s : State) (o n : Nat) (inside : o + n ≤ 80) : Bytes n := slice s.hbuf o n inside

/-- `le_uint(buf[o:o+4))`, unsigned (R101). -/
def State.bufWord (s : State) (o : Nat) (inside : o + 4 ≤ 80) : Word := leWord (slice s.hbuf o 4 inside)

/-- The value of `SIZE`, signed (R25). -/
def State.sizeInt (s : State) : Int := s.size.toInt

/-- `divmod(a, d)`: the quotient and the remainder of naturals (R8, R205). -/
def divmod (a d : Nat) : Nat × Nat := (a / d, a % d)

/-- `mantissa × 256^(exponent − 3)`, exact (R103, R191, R203). -/
def targetOf (exponent mantissa : Nat) : Nat := mantissa * 256 ^ (exponent - 3)

/-- The ASCII code of a hex digit (R200). -/
def hexDigit (c : HexCase) (d : Nat) : Byte :=
  if d < 10 then BitVec.ofNat 8 (0x30 + d)
  else match c with
    | .lower => BitVec.ofNat 8 (0x61 + (d - 10))
    | .upper => BitVec.ofNat 8 (0x41 + (d - 10))

/-- `"0x"` and the 64 hex digits of a target, most significant first, leading zeros kept (R200). -/
def targetText (c : HexCase) (t : Word256) : Bytes 66 :=
  Vector.ofFn fun i =>
    if i.val = 0 then 0x30
    else if i.val = 1 then 0x78
    else hexDigit c ((t.toNat >>> (4 * (63 - (i.val - 2)))) % 16)

end Sys2Proof.Machine
end

