-- ==== Sys2Proof/Machine/Ops.lean ====
section
/-! DEFINITION. The shared operations: the stream read (R62), the sequencer's moves, trap entry and return
(R270, R272), the return to the reset values (R42, R235), the commit of a result (R230). -/

namespace Sys2Proof.Machine

/-! ## STREAM space -/

/-- What `MemRead` returns (R9, R62), or that CORE waits for STREAM (R78). -/
inductive ReadResult where
  | full (bytes : List Byte)
  | short (k : Nat)
  | waiting
  deriving DecidableEq, Repr

/-- `MemRead(POS, n)` (R62 to R64): all `n` bytes at `POS` when STREAM has offered them; when the stream ends
before, the `k` bytes there are consumed and delivered nowhere; while neither is so, nothing happens (R78). -/
def memRead (n : Nat) (s : State) : ReadResult × State :=
  if n ≤ s.unread.length then
    (.full (s.unread.take n), { s with unread := s.unread.drop n, pos := s.pos + n })
  else if s.eos then
    (.short s.unread.length, { s with unread := [], pos := s.pos + s.unread.length })
  else (.waiting, s)

/-- The byte of the STREAM space at address `a` that a read can still deliver: none below `POS`, because a byte is
delivered once (R70), and none where nothing has been offered (R61). -/
def State.streamByte (s : State) (a : Nat) : Option Byte :=
  if s.pos ≤ a then s.unread[a - s.pos]? else none

/-- The bytes that can still be read as (address, byte) pairs, addresses rising from `POS`; an address not listed
holds nothing (R61). Log entry 1. -/
def State.memory (s : State) : List Host.Cell := s.unread.zipIdx s.pos |>.map fun (b, a) => (a, b)

/-- The canonical form of such a list: addresses strictly rising. No entry can equal what an unlisted address reads
as, because an unlisted address holds no byte (R61). -/
def Memory.wf : List Host.Cell → Bool
  | [] => true
  | [_] => true
  | (a, _) :: (a', b') :: rest => decide (a < a') && Memory.wf ((a', b') :: rest)

/-! ## The sequencer -/

/-- `x[PH] <- p`: the phase's group begins with its first operation (R9, R23). -/
def setPhase (p : Phase) (s : State) : State := { s with ph := p, slot := 0 }

/-- The next operation of the same phase's group (R23: HDEC and TGT perform a group of operations). -/
def nextPlace (s : State) : State := { s with slot := s.slot + 1 }

/-! ## Trap entry and return -/

/-- Trap entry (R270): `ERR_*` and TERM are written, the phase becomes FAULT, nothing else changes. -/
def takeError (c : Cause) (pos : Nat) (s : State) : State :=
  { s with
    err := { code := c.code, sub := c.sub, pos := pos, record := s.recIdx }
    term := c.terminal
    ph := .fault
    slot := 0 }

/-- Return, and the end of a record (R134, R272): the record index counts on, `ERR_*` are cleared, and the sequence
goes on with the next marker (LOOP) or ends (SINGLE). -/
def disposeRecord (s : State) : State :=
  { s with
    recIdx := s.recIdx + 1
    err := ErrorRegs.none
    ph := if s.single then .done else .mark
    slot := 0 }

/-! ## The commit of a result -/

/-- The text of `W_TARGET` goes to `TARGET_HEX` (R200). -/
def writeTargetHex (s : State) : State :=
  { s with res := { s.res with targetHex := targetText Config.hexCase s.w.target } }

/-- The result registers OUT.EMIT writes from the latches and `REC_START` (R230). -/
def resultOf (w : Latches) (recStart : Nat) : Results where
  version := w.version
  prevHash := w.prevHash
  merkleRoot := w.merkleRoot
  timestamp := w.timestamp
  bitsRaw := w.bits
  bitsU32 := leWord w.bits
  nonce := w.nonce
  target := w.target
  targetHex := targetText Config.hexCase w.target
  pdiffQ := w.pq
  pdiffR := w.pr
  bdiffQ := w.bq
  bdiffR := w.br
  payloadLen := w.payloadLen
  payloadPos := recStart + 88

/-- OUT.EMIT (R230): the result registers are written and RDY is set, which is `PH` = EMIT (R36). -/
def commitResult (s : State) : State :=
  { s with res := resultOf s.w s.recStart, ph := .emit, slot := 0 }

/-! ## Return to the reset values -/

/-- The latches after a return to the reset values: unspecified, so free values (R42, U2, log entry 6). -/
def unspecLatches (epoch : Nat) : Latches where
  version := Config.unspecBits 32 41 epoch
  prevHash := Config.unspecBytes 32 42 epoch
  merkleRoot := Config.unspecBytes 32 43 epoch
  timestamp := Config.unspecBits 32 44 epoch
  bits := Config.unspecBytes 4 45 epoch
  nonce := Config.unspecBits 32 46 epoch
  payloadLen := Config.unspecBits 32 47 epoch
  exp := Config.unspecBits 8 48 epoch
  mant := Config.unspecBits 24 49 epoch
  target := Config.unspecBits 256 50 epoch
  pq := Config.unspecBits 256 51 epoch
  pr := Config.unspecBits 256 52 epoch
  bq := Config.unspecBits 256 53 epoch
  br := Config.unspecBits 256 54 epoch

/-- The result registers after a return to the reset values: unspecified, so free values (R42, U2, log entry 6). -/
def unspecResults (epoch : Nat) : Results where
  version := Config.unspecBits 32 16 epoch
  prevHash := Config.unspecBytes 32 17 epoch
  merkleRoot := Config.unspecBytes 32 18 epoch
  timestamp := Config.unspecBits 32 19 epoch
  bitsRaw := Config.unspecBytes 4 20 epoch
  bitsU32 := Config.unspecBits 32 21 epoch
  nonce := Config.unspecBits 32 22 epoch
  target := Config.unspecBits 256 23 epoch
  targetHex := Config.unspecBytes 66 24 epoch
  pdiffQ := Config.unspecBits 256 25 epoch
  pdiffR := Config.unspecBits 256 26 epoch
  bdiffQ := Config.unspecBits 256 27 epoch
  bdiffR := Config.unspecBits 256 28 epoch
  payloadLen := Config.unspecBits 32 29 epoch
  payloadPos := Config.unspecNat 30 epoch

/-- Every register of CORE takes its reset value except `CTRL`, and STREAM and HOST are left alone (R42, R235,
R302): what CMD.ABORT does, and what `rst` does beside clearing `CTRL`. The unspecified registers take free values of
the counter `epoch` (log entry 6). R42 and U2 allow each instance its own; that instances with equal counters agree is a
DESIGN CHOICE, unsafe: log entry 25. -/
def restoreReset (s : State) : State :=
  { s with
    ph := .idle
    slot := 0
    pos := 0
    recIdx := 0
    recStart := 0
    marker := Config.unspecBytes 4 10 s.epoch
    size := Config.unspecBits 32 11 s.epoch
    len := Config.unspecBits 32 12 s.epoch
    hbuf := Config.unspecBytes 80 40 s.epoch
    w := unspecLatches s.epoch
    res := unspecResults s.epoch
    err := ErrorRegs.none
    term := false
    epoch := s.epoch + 1 }

/-- `rst` (R300): every register takes its reset value, `CTRL` too. -/
def applyRst (s : State) : State := { restoreReset s with ctrl := 0 }

/-! ## Acceptance of commands -/

/-- CMD.NEXT is accepted in EMIT, and in FAULT with TERM = 0 (R234, R236). -/
def State.acceptsNext (s : State) : Bool := s.ph == .emit || (s.ph == .fault && !s.term)

/-- CMD.ABORT has an effect in EMIT, FAULT and DONE; in IDLE it is accepted without effect (R235, R236). -/
def State.abortTakesEffect (s : State) : Bool := s.ph == .emit || s.ph == .fault || s.ph == .done

end Sys2Proof.Machine
end

