-- ==== Sys2Proof/Machine/Difficulty.lean ====
section
/-! DEFINITION. The DIFF operations: DF.UNPK, DF.TGT, DF.PDIF, DF.BDIF, DF.HEX, DF.DEC (R190 to R208). All arithmetic
is exact on naturals and narrowed at the end, where nothing is lost (R199, R203, R208). -/

namespace Sys2Proof.Machine

/-- DF.UNPK (R190): the sign bit is an ordinary mantissa bit (R193). -/
def execDfUnpk (s : State) : Host.Outcome State Fault Refusal :=
  .next (nextPlace { s with w := { s.w with
    exp := (decodeCompact s.w.bits).exponent
    mant := (decodeCompact s.w.bits).mantissa } })

/-- DF.TGT (R191): the exponent's range is checked before anything else (R194, R195). -/
def execDfTgt (s : State) : Host.Outcome State Fault Refusal :=
  if s.w.exp.toNat < Config.expMin then .next (takeError .expLow (s.recStart + 80) s)
  else if Config.expMax < s.w.exp.toNat then .next (takeError .expHigh (s.recStart + 80) s)
  else
    .next (setPhase .pdif
      { s with w := { s.w with target := BitVec.ofNat 256 (targetOf s.w.exp.toNat s.w.mant.toNat) } })

/-- DF.PDIF (R196): `GENESIS_TARGET` divided by the target, as quotient and remainder (R198). -/
def execDfPdif (s : State) : Host.Outcome State Fault Refusal :=
  if s.w.target.toNat = 0 then .next (takeError .divPdif (s.recStart + 80) s)
  else
    let qr := divmod Config.genesisTarget.toNat s.w.target.toNat
    .next (setPhase .bdif { s with w := { s.w with pq := BitVec.ofNat 256 qr.1, pr := BitVec.ofNat 256 qr.2 } })

/-- DF.BDIF (R197): `GENESIS_TARGET_TRUNCATED` divided by the target. Its success and OUT.EMIT, with DF.HEX, are one
step (R230). -/
def execDfBdif (s : State) : Host.Outcome State Fault Refusal :=
  if s.w.target.toNat = 0 then .next (takeError .divBdif (s.recStart + 80) s)
  else
    let qr := divmod Config.genesisTargetTruncated.toNat s.w.target.toNat
    .next (commitResult { s with w := { s.w with bq := BitVec.ofNat 256 qr.1, br := BitVec.ofNat 256 qr.2 } })

/-- DF.HEX (R200), the part of OUT.EMIT that writes `TARGET_HEX`; it never changes the integer (R311). -/
def execDfHex (s : State) : Host.Outcome State Fault Refusal := .next (writeTargetHex s)

/-- The decimal strings of pdifficulty and bdifficulty from a result: numerator `Q × TARGET + R` over `TARGET` (D9). -/
def renderRatios (r : Results) : List Char × List Char :=
  (decRender (r.pdiffQ.toNat * r.target.toNat + r.pdiffR.toNat) r.target.toNat,
   decRender (r.bdiffQ.toNat * r.target.toNat + r.bdiffR.toNat) r.target.toNat)

/-- DF.DEC (R201): not performed by the hardware and changes no register of it. HOST renders the two ratios of the
result it holds; without a result there is nothing to read (R32). Log entry 9. -/
def execDfDec (s : State) : Host.Outcome State Fault Refusal :=
  if s.rdy then .next { s with decimals := some (renderRatios s.res) } else .refused (.resultNotReady 25)

end Sys2Proof.Machine
end

