-- ==== Sys2Proof/Machine/Framer.lean ====
section
/-! DEFINITION. The FRAMER operations: FR.MARK, FR.SIZE, FR.DATA, FR.NEXT (R130 to R142). A read that STREAM cannot
answer yet leaves the state as it is: CORE waits inside the operation (R78, log entry 4). -/

namespace Sys2Proof.Machine

/-- FR.MARK (R131): the marker is stored and never compared (R140); no byte at a record boundary is the normal end
in LOOP mode and an error in SINGLE mode (R138, R139). -/
def execFrMark (s : State) : Host.Outcome State Fault Refusal :=
  match memRead Config.markLen s with
  | (.full m, t) => .next (setPhase .size { t with recStart := s.pos, marker := toBytes 4 m })
  | (.short k, t) =>
    if k = 0 ∧ s.single = false then .next (setPhase .done t) else .next (takeError .markShort s.pos t)
  | (.waiting, t) => .next t

/-- FR.SIZE (R132): the size field is signed; a negative one is stored and raises MalformedStream / NEG_SIZE. -/
def execFrSize (s : State) : Host.Outcome State Fault Refusal :=
  match memRead Config.sizeLen s with
  | (.full b, t) =>
    let u := { t with size := BitVec.ofInt 32 (leSint32 b) }
    if leSint32 b < 0 then .next (takeError .negSize s.pos u) else .next (setPhase .data u)
  | (.short _, t) => .next (takeError .sizeShort s.pos t)
  | (.waiting, t) => .next t

/-- The header buffer after FR.DATA: its first `min(n, 80)` bytes are the data's, the others as they were (R133, R27). -/
def keepHeader (data : List Byte) (old : Bytes 80) : Bytes 80 :=
  Vector.ofFn fun i => (data[i.val]?).getD old[i]

/-- FR.DATA (R133): `SIZE` bytes are consumed, `LEN` and `HBUF` written; bytes at offset 80 and up are dropped. With
a negative `SIZE`, which no run reaches, the spec gives no effect (R62, log entry 11). -/
def execFrData (s : State) : Host.Outcome State Fault Refusal :=
  if s.sizeInt < 0 then .fault .negativeReadLength
  else
    match memRead s.sizeInt.toNat s with
    | (.full b, t) => .next (setPhase .hdec { t with len := s.size, hbuf := keepHeader b s.hbuf })
    | (.short _, t) => .next (takeError .dataShort s.pos t)
    | (.waiting, t) => .next t

/-- FR.NEXT (R134): the record is disposed of; `POS` already stands at the next record boundary. -/
def execFrNext (s : State) : Host.Outcome State Fault Refusal := .next (disposeRecord s)

end Sys2Proof.Machine
end

