-- ==== Sys2Proof/Machine/Header.lean ====
section
/-! DEFINITION. The HDEC operations: HD.CHK, six field extractions, HD.PAY (R160 to R168). Each goes on to the next
operation of the HDEC group; HD.PAY, the last, ends the group with `PH` <- TGT. -/

namespace Sys2Proof.Machine

/-- HD.CHK (R160): a record of fewer than 80 bytes raises TruncatedHeader at its first data byte. -/
def execHdChk (s : State) : Host.Outcome State Fault Refusal :=
  if s.len.toNat < Config.hdrLen then .next (takeError .truncated (s.recStart + 8) s) else .next (nextPlace s)

/-- HD.VER (R161). -/
def execHdVer (s : State) : Host.Outcome State Fault Refusal :=
  .next (nextPlace { s with w := { s.w with version := s.bufWord 0 (by decide) } })

/-- HD.PREV (R162): wire order kept. -/
def execHdPrev (s : State) : Host.Outcome State Fault Refusal :=
  .next (nextPlace { s with w := { s.w with prevHash := s.bufBytes 4 32 (by decide) } })

/-- HD.MRKL (R163): wire order kept. -/
def execHdMrkl (s : State) : Host.Outcome State Fault Refusal :=
  .next (nextPlace { s with w := { s.w with merkleRoot := s.bufBytes 36 32 (by decide) } })

/-- HD.TIME (R164). -/
def execHdTime (s : State) : Host.Outcome State Fault Refusal :=
  .next (nextPlace { s with w := { s.w with timestamp := s.bufWord 68 (by decide) } })

/-- HD.BITS (R165): raw bytes, not interpreted here. -/
def execHdBits (s : State) : Host.Outcome State Fault Refusal :=
  .next (nextPlace { s with w := { s.w with bits := s.bufBytes 72 4 (by decide) } })

/-- HD.NONCE (R166). -/
def execHdNonce (s : State) : Host.Outcome State Fault Refusal :=
  .next (nextPlace { s with w := { s.w with nonce := s.bufWord 76 (by decide) } })

/-- `LEN − 80`; the spec states no result for `LEN` below 80, where HD.CHK has already raised (R167, log entry 12). -/
def payloadLength (len : Word) : Word :=
  if Config.hdrLen ≤ len.toNat then BitVec.ofNat 32 (len.toNat - Config.hdrLen) else Config.shortPayloadLen len

/-- HD.PAY (R167): the payload begins at offset 80 exactly; it is counted, not kept. -/
def execHdPay (s : State) : Host.Outcome State Fault Refusal :=
  .next (setPhase .tgt { s with w := { s.w with payloadLen := payloadLength s.len } })

end Sys2Proof.Machine
end

