-- ==== Sys2Proof/Machine/Output.lean ====
section
/-! DEFINITION. OUT.EMIT and the HOST commands START, NEXT, ABORT (R230 to R236). A command in a phase that does not
accept it is ignored: no state changes (R236, D19, log entry 23). -/

namespace Sys2Proof.Machine

/-- OUT.EMIT (R230). -/
def execOutEmit (s : State) : Host.Outcome State Fault Refusal := .next (commitResult s)

/-- CMD.START (R233): accepted in IDLE. After `rst` or CMD.ABORT in mid-stream and without a new stream the run goes on at
the next byte, which it calls offset 0, as R308 says; that this run is modelled and not refused, as U14 would have it, is a
DESIGN CHOICE: log entry 24. -/
def execCmdStart (s : State) : Host.Outcome State Fault Refusal :=
  if s.ph = .idle then .next (setPhase .mark { s with pos := 0, recIdx := 0, recStart := 0 }) else .next s

/-- CMD.NEXT (R234): performs FR.NEXT where it is accepted. -/
def execCmdNext (s : State) : Host.Outcome State Fault Refusal :=
  if s.acceptsNext then .next (disposeRecord s) else .next s

/-- CMD.ABORT (R235): a soft reset that keeps `CTRL`. -/
def execCmdAbort (s : State) : Host.Outcome State Fault Refusal :=
  if s.abortTakesEffect then .next (restoreReset s) else .next s

end Sys2Proof.Machine
end

