-- ==== Sys2Proof/Machine/Dispatch.lean ====
section
/-! DEFINITION. One arm per operation, each a direct call of its meaning. -/

namespace Sys2Proof.Machine

def exec (i : Instr) (s : State) : Host.Outcome State Fault Refusal :=
  match i with
  | .frMark => Sys2Proof.Machine.execFrMark s
  | .frSize => Sys2Proof.Machine.execFrSize s
  | .frData => Sys2Proof.Machine.execFrData s
  | .frNext => Sys2Proof.Machine.execFrNext s
  | .hdChk => Sys2Proof.Machine.execHdChk s
  | .hdVer => Sys2Proof.Machine.execHdVer s
  | .hdPrev => Sys2Proof.Machine.execHdPrev s
  | .hdMrkl => Sys2Proof.Machine.execHdMrkl s
  | .hdTime => Sys2Proof.Machine.execHdTime s
  | .hdBits => Sys2Proof.Machine.execHdBits s
  | .hdNonce => Sys2Proof.Machine.execHdNonce s
  | .hdPay => Sys2Proof.Machine.execHdPay s
  | .dfUnpk => Sys2Proof.Machine.execDfUnpk s
  | .dfTgt => Sys2Proof.Machine.execDfTgt s
  | .dfPdif => Sys2Proof.Machine.execDfPdif s
  | .dfBdif => Sys2Proof.Machine.execDfBdif s
  | .dfHex => Sys2Proof.Machine.execDfHex s
  | .dfDec => Sys2Proof.Machine.execDfDec s
  | .outEmit => Sys2Proof.Machine.execOutEmit s
  | .cmdStart => Sys2Proof.Machine.execCmdStart s
  | .cmdNext => Sys2Proof.Machine.execCmdNext s
  | .cmdAbort => Sys2Proof.Machine.execCmdAbort s

end Sys2Proof.Machine
end

