-- ==== Sys2Proof/Machine/Sequencer.lean ====
section
/-! DEFINITION. Which operation a step performs, HOST's access to the register file (R237) and what STREAM, the
environment and `rst` do (R78, R300, R303). -/

namespace Sys2Proof.Machine

/-! ## The register file -/

/-- An integer register's value. -/
def RegValue.ofBits {w : Nat} (v : BitVec w) : RegValue := .uint w v.toNat

/-- A byte register's value. -/
def RegValue.ofBytes {n : Nat} (v : Bytes n) : RegValue := .bytes v.toList

/-- The value of result register `reg`, 16 to 30 (R20, R29). -/
def readResult (r : Results) (reg : Nat) : RegValue :=
  match reg with
  | 16 => .ofBits r.version
  | 17 => .ofBytes r.prevHash
  | 18 => .ofBytes r.merkleRoot
  | 19 => .ofBits r.timestamp
  | 20 => .ofBytes r.bitsRaw
  | 21 => .ofBits r.bitsU32
  | 22 => .ofBits r.nonce
  | 23 => .ofBits r.target
  | 24 => .ofBytes r.targetHex
  | 25 => .ofBits r.pdiffQ
  | 26 => .ofBits r.pdiffR
  | 27 => .ofBits r.bdiffQ
  | 28 => .ofBits r.bdiffR
  | 29 => .ofBits r.payloadLen
  | _ => .uint 64 r.payloadPos

/-- A HOST read (R20 section 1, R237): a result register only while RDY = 1, else refused (R32); `CMD` and every
number that names no register read 0 (R35, D3); the reserved bits of `CTRL` read 0 (R34). -/
def readReg (s : State) (reg : BitVec 6) : Except Refusal RegValue :=
  if 16 ≤ reg.toNat ∧ reg.toNat ≤ 30 then
    if s.rdy then .ok (readResult s.res reg.toNat) else .error (.resultNotReady reg)
  else
    .ok (match reg.toNat with
      | 0 => .ofBits (s.ctrl &&& 1)
      | 2 => .ofBits s.status
      | 3 => .ofBits s.err.code
      | 4 => .ofBits s.err.sub
      | 5 => .uint 64 s.err.pos
      | 6 => .uint 64 s.err.record
      | 7 => .uint 64 s.pos
      | 8 => .uint 64 s.recIdx
      | 9 => .uint 64 s.recStart
      | 10 => .ofBytes s.marker
      | 11 => .sint 32 s.sizeInt
      | 12 => .ofBits s.len
      | 32 => .ofBits Config.genesisTarget
      | 33 => .ofBits Config.genesisTargetTruncated
      | _ => .uint 32 0)

/-- A HOST write to a register other than `CMD`: it changes `CTRL`, in IDLE only and bit 0 only (R34); every other
write is ignored (R20, R33, R237). -/
def writeReg (reg : BitVec 6) (value : Word) (s : State) : State :=
  if reg = 0 ∧ s.ph = .idle then { s with ctrl := value &&& 1 } else s

/-! ## STREAM and the environment -/

/-- A run is in progress (R321): from START until DONE, a terminal FAULT, ABORT or `rst`. -/
def State.running (s : State) : Bool :=
  !(s.ph == .idle || s.ph == .done || (s.ph == .fault && s.term))

/-- No stream is bound: nothing offered, no end indication, nothing consumed since START (R303). -/
def State.unbound (s : State) : Bool := s.unread.isEmpty && !s.eos && s.pos == 0

/-- The environment binds a stream (R303): before a run, or while CORE waits in its first FR.MARK for one; in a run
that has a stream it is outside the model's domain (R74, R77, log entry 14). -/
def bindStream (bytes : List Byte) (ended : Bool) (s : State) : Host.Outcome State Fault Refusal :=
  if s.running && !s.unbound then .refused .streamInUse
  else .next { s with unread := bytes, eos := ended }

/-- STREAM offers one byte more (R78), which cannot be after its end indication (R61, log entry 14). -/
def deliverByte (b : Byte) (s : State) : Host.Outcome State Fault Refusal :=
  if s.eos then .refused .byteAfterEnd else .next { s with unread := s.unread ++ [b] }

/-! ## What a step performs -/

/-- CORE's turn (R11, R23): in a run phase the operation the phase and its place select; in a wait state nothing,
because CORE has no step of its own there (R240). -/
def coreTurn (s : State) : Fetched :=
  match decode (.sequencer s.ph.code s.slot) with
  | .ok i => .run i s
  | .error _ => .settled (.next s)

/-- A word written to `CMD` (R35, R106): a command, or no operation. -/
def commandWrite (word : Word) (s : State) : Fetched :=
  match decode (.command word) with
  | .ok i => .run i s
  | .error _ => .settled (.next s)

/-- What an input does; `s` no longer holds it. -/
def takeInput (i : Input) (s : State) : Fetched :=
  match i with
  | .core => coreTurn s
  | .hostWrite reg value =>
    if reg = 1 then commandWrite value s else .settled (.next (writeReg reg value s))
  | .hostRead reg =>
    match readReg s reg with
    | .ok v => .settled (.next { s with hostData := some v })
    | .error r => .settled (.refused r)
  | .hostRender => .run .dfDec s
  | .rst => .settled (.next (applyRst s))
  | .bind bytes ended => .settled (bindStream bytes ended s)
  | .deliver b => .settled (deliverByte b s)
  | .endOfStream => .settled (.next { s with eos := true })

/-- The next thing a step does: the first input, and with none left CORE's turn (R10, R11, log entry 3). -/
def fetch (s : State) : Fetched :=
  match s.inputs with
  | [] => coreTurn s
  | i :: rest => takeInput i { s with inputs := rest }

/-- HOST writes the command word `w` next: what a step fetches first (log entries 3, 15 and 16). -/
def pushCommand (w : Nat) (s : State) : State :=
  { s with inputs := .hostWrite 1 (BitVec.ofNat 32 w) :: s.inputs }

end Sys2Proof.Machine
end

