-- ==== Sys2Proof/Machine/Step.lean ====
section
/-! DEFINITION. One step: what `fetch` finds is performed (R11). -/

namespace Sys2Proof.Machine

/-- One atomic step of CORE or of an agent beside it (R10, R11). -/
def step (s : State) : Host.Outcome State Fault Refusal :=
  match fetch s with
  | .run i t => exec i t
  | .settled o => o

/-- `s` with the table word `w` of `nbits` bits as what step fetches next: HOST writes it to `CMD` (R106). -/
def State.withFetchWord (s : State) (nbits w : Nat) : State := pushCommand (w % 2 ^ nbits) s

end Sys2Proof.Machine
end

