-- ==== Sys2Proof/Machine/Instances.lean ====
section
/-! DEFINITION. Several instances (R75, R285): the product of independent machines, each with its own state, stream
and HOST. They share only the constants, which nothing writes (R33). -/

namespace Sys2Proof.Machine

/-- One step of instance `k` of several; a number that names no instance changes nothing. What two instances hold in
unspecified registers: log entry 25. -/
def stepInstance (k : Nat) (b : List State) : Host.Outcome (List State) Fault Refusal :=
  match b[k]? with
  | some s =>
    match step s with
    | .next t => .next (b.set k t)
    | .fault r => .fault r
    | .refused r => .refused r
  | none => .next b

end Sys2Proof.Machine
end

