-- ==== Sys2Proof/Machine/Reference.lean ====
section
/-! DEFINITION. The reference function `Run` of R12, written from its own text and not from the machine, and a HOST
that answers every outcome as R12 and R242 say. -/

namespace Sys2Proof.Machine

/-- An outcome of a record (R12): the result record of R231, or an error with its code, sub-code, byte offset and
record index. -/
inductive RefOutcome where
  | ok (result : Results) (marker : Bytes 4) (size : Int) (recIdx recStart : Nat)
  | err (code sub : BitVec 8) (pos record : Nat)
  deriving DecidableEq, Repr

/-- How a run ends (R12, R321). -/
inductive RefEnd where
  | exhausted
  | terminal
  deriving DecidableEq, Repr

/-- `b[i:j)` (R7). -/
def byteRange (b : List Byte) (i j : Nat) : List Byte := (b.drop i).take (j - i)

/-- `T` of R231: `le_uint(buf[72:75)) × 256^(buf[75] − 3)`. -/
def refTarget (buf : List Byte) : Nat :=
  leUint (byteRange buf 72 75) * 256 ^ (leUint (byteRange buf 75 76) - 3)

/-- The result record of R231 for a record with data `buf` that begins at stream offset `start`. -/
def refResult (buf : List Byte) (start : Nat) : Results where
  version := BitVec.ofNat 32 (leUint (byteRange buf 0 4))
  prevHash := toBytes 32 (byteRange buf 4 36)
  merkleRoot := toBytes 32 (byteRange buf 36 68)
  timestamp := BitVec.ofNat 32 (leUint (byteRange buf 68 72))
  bitsRaw := toBytes 4 (byteRange buf 72 76)
  bitsU32 := BitVec.ofNat 32 (leUint (byteRange buf 72 76))
  nonce := BitVec.ofNat 32 (leUint (byteRange buf 76 80))
  target := BitVec.ofNat 256 (refTarget buf)
  targetHex := targetText Config.hexCase (BitVec.ofNat 256 (refTarget buf))
  pdiffQ := BitVec.ofNat 256 ((2 ^ 224 - 1) / refTarget buf)
  pdiffR := BitVec.ofNat 256 ((2 ^ 224 - 1) % refTarget buf)
  bdiffQ := BitVec.ofNat 256 (65535 * 2 ^ 208 / refTarget buf)
  bdiffR := BitVec.ofNat 256 (65535 * 2 ^ 208 % refTarget buf)
  payloadLen := BitVec.ofNat 32 (buf.length - 80)
  payloadPos := start + 88

/-- An error outcome of a cause (R260, R261). -/
def refError (c : Cause) (pos record : Nat) : RefOutcome := .err c.code c.sub pos record

/-- `Decode` of R12. -/
def refDecode (buf : List Byte) (marker : List Byte) (size : Int) (start idx : Nat) : RefOutcome :=
  if buf.length < 80 then refError .truncated (start + 8) idx
  else if leUint (byteRange buf 75 76) < 3 then refError .expLow (start + 80) idx
  else if 32 < leUint (byteRange buf 75 76) then refError .expHigh (start + 80) idx
  else if refTarget buf = 0 then refError .divPdif (start + 80) idx
  else .ok (refResult buf start) (toBytes 4 marker) size idx start

/-- The loop of `Run` (R12) on the bytes `rest` that stand at offset `pos`, with a bound on the number of records. -/
def refLoop (single : Bool) : (bound : Nat) → (rest : List Byte) → (pos idx : Nat) → List RefOutcome × RefEnd
  | 0, _, _, _ => ([], .terminal)
  | bound + 1, rest, pos, idx =>
    if single = false ∧ rest.length = 0 then ([], .exhausted)
    else if rest.length < 4 then ([refError .markShort pos idx], .terminal)
    else if rest.length < 8 then ([refError .sizeShort (pos + 4) idx], .terminal)
    else
      let size := leSint32 (byteRange rest 4 8)
      if size < 0 then ([refError .negSize (pos + 4) idx], .terminal)
      else if rest.length - 8 < size.toNat then ([refError .dataShort (pos + 8) idx], .terminal)
      else
        let out := refDecode (byteRange rest 8 (8 + size.toNat)) (byteRange rest 0 4) size pos idx
        if single then ([out], .exhausted)
        else
          let (outs, how) := refLoop single bound (rest.drop (8 + size.toNat)) (pos + 8 + size.toNat) (idx + 1)
          (out :: outs, how)

/-- `Run(S, m)` (R12). Every pass of the loop but the last takes at least eight bytes, so the bound is never met. -/
def refRun (stream : List Byte) (single : Bool) : List RefOutcome × RefEnd :=
  refLoop single (stream.length + 1) stream 0 0

/-! ## The machine under a HOST that answers -/

/-- The outcome HOST finds in the registers in EMIT and in FAULT (R231, R266). -/
def State.outcome (s : State) : RefOutcome :=
  if s.ph = .emit then .ok s.res s.marker s.sizeInt s.recIdx s.recStart
  else .err s.err.code s.err.sub s.err.pos s.err.record

/-- The state after a step; the state itself where the step stops. -/
def stepOrStay (s : State) : State :=
  match step s with
  | .next t => t
  | .fault _ => s
  | .refused _ => s

/-- A HOST that answers every result and every record-scoped error with CMD.NEXT and stops at DONE and at a terminal
error (R12, R242), for at most `n` steps: the outcomes in order and the state it stops in. -/
def drive : (n : Nat) → State → List RefOutcome × State
  | 0, s => ([], s)
  | n + 1, s =>
    match s.ph with
    | .emit =>
      let (outs, t) := drive n (stepOrStay (pushCommand 2 s))
      (s.outcome :: outs, t)
    | .fault =>
      if s.term then ([s.outcome], s)
      else
        let (outs, t) := drive n (stepOrStay (pushCommand 2 s))
        (s.outcome :: outs, t)
    | .done => ([], s)
    | .idle => ([], s)
    | .mark | .size | .data | .hdec | .tgt | .pdif | .bdif => drive n (stepOrStay s)

/-- How the run a state stands at the end of has ended (R321). -/
def State.runEnd (s : State) : Option RefEnd :=
  match s.ph with
  | .done => some .exhausted
  | .fault => if s.term then some .terminal else none
  | _ => none

end Sys2Proof.Machine
end

