-- ==== Sys2Proof/Safety.lean ====
section
/-! DEFINITION. The terms claims use: the invariant of a safe state, the transition table of R240, the commands each
phase accepts (R236), the domain of the position registers (R6). -/

namespace Sys2Proof.Machine

/-- How many operations of the record's HDEC and DIFF groups have been performed: eight of HDEC, two of TGT, PDIF,
BDIF (R23, R240). -/
def State.progress (s : State) : Nat :=
  match s.ph with
  | .hdec => s.slot
  | .tgt => 8 + s.slot
  | .pdif => 10
  | .bdif => 11
  | .emit => 12
  | .idle | .mark | .size | .data | .fault | .done => 0

/-- A record has been framed and not yet disposed of: the phases after FR.DATA, and a record-scoped error (R263). -/
def State.holdsRecord (s : State) : Bool :=
  match s.ph with
  | .hdec | .tgt | .pdif | .bdif | .emit => true
  | .fault => !s.term
  | .idle | .mark | .size | .data | .done => false

/-- `ERR_POS` by cause (R266). For MARK_SHORT it is `POS` before the read, of which at most three bytes followed. -/
def errPosFits (c : Cause) (s : State) : Prop :=
  match c with
  | .markShort => s.err.pos ≤ s.pos ∧ s.pos < s.err.pos + 4
  | .sizeShort | .negSize => s.err.pos = s.recStart + 4
  | .dataShort | .truncated => s.err.pos = s.recStart + 8
  | .expLow | .expHigh | .divPdif | .divBdif => s.err.pos = s.recStart + 80

/-- The invariant of a safe state: what every register says of the others, phase by phase. -/
structure State.Inv (s : State) : Prop where
  /-- The place is one of the phase's group (R23). -/
  place : s.slot < max 1 (groupSizeOfCode s.ph.code)
  /-- The reserved bits of `CTRL` are 0 (R34). -/
  ctrlReserved : s.ctrl &&& 1 = s.ctrl
  /-- No error is held outside FAULT (R36, R37, R38). -/
  noError : s.ph ≠ .fault → s.err = ErrorRegs.none ∧ s.term = false
  /-- In FAULT one error of R261 is held, never BDIF's (U16), with the context R266 gives it. -/
  errorHeld : s.ph = .fault → ∃ c : Cause, c ≠ .divBdif ∧ s.err.code = c.code ∧ s.err.sub = c.sub ∧
    s.term = c.terminal ∧ s.err.record = s.recIdx ∧ errPosFits c s
  /-- In IDLE the positions are 0 (R21, R22, R42). -/
  atStart : s.ph = .idle → s.pos = 0 ∧ s.recIdx = 0 ∧ s.recStart = 0
  /-- After the marker (R131). -/
  afterMark : s.ph = .size → s.pos = s.recStart + 4
  /-- After the size field, which is not negative (R132). -/
  afterSize : s.ph = .data → s.pos = s.recStart + 8 ∧ 0 ≤ s.sizeInt
  /-- A framed record: `LEN` = `SIZE` and `POS` is the next record boundary (R26, R72, R133). -/
  framed : s.holdsRecord = true → s.len = s.size ∧ 0 ≤ s.sizeInt ∧ s.pos = s.recStart + 8 + s.len.toNat
  /-- HD.CHK has passed (R160). -/
  checked : 1 ≤ s.progress → 80 ≤ s.len.toNat
  /-- The header latches written so far are the fields of `HBUF` (R161 to R167). -/
  version : 2 ≤ s.progress → s.w.version = (decodeHeader s.hbuf).version
  prevHash : 3 ≤ s.progress → s.w.prevHash = (decodeHeader s.hbuf).prevHash
  merkleRoot : 4 ≤ s.progress → s.w.merkleRoot = (decodeHeader s.hbuf).merkleRoot
  timestamp : 5 ≤ s.progress → s.w.timestamp = (decodeHeader s.hbuf).timestamp
  bits : 6 ≤ s.progress → s.w.bits = (decodeHeader s.hbuf).bits
  nonce : 7 ≤ s.progress → s.w.nonce = (decodeHeader s.hbuf).nonce
  payload : 8 ≤ s.progress → s.w.payloadLen.toNat = s.len.toNat - 80
  /-- The compact target is unpacked (R190). -/
  unpacked : 9 ≤ s.progress →
    s.w.exp = (decodeCompact s.w.bits).exponent ∧ s.w.mant = (decodeCompact s.w.bits).mantissa
  /-- The target is the mathematical product, exponent in range (R191, R203). -/
  target : 10 ≤ s.progress → 3 ≤ s.w.exp.toNat ∧ s.w.exp.toNat ≤ 32 ∧
    s.w.target.toNat = s.w.mant.toNat * 256 ^ (s.w.exp.toNat - 3)
  /-- pdifficulty is exact (R196, R198, R205). -/
  pdifficulty : 11 ≤ s.progress →
    s.w.pq.toNat * s.w.target.toNat + s.w.pr.toNat = 2 ^ 224 - 1 ∧ s.w.pr.toNat < s.w.target.toNat
  /-- bdifficulty is exact (R197, R198, R205). -/
  bdifficulty : 12 ≤ s.progress →
    s.w.bq.toNat * s.w.target.toNat + s.w.br.toNat = 65535 * 2 ^ 208 ∧ s.w.br.toNat < s.w.target.toNat
  /-- A result held is the whole record of R230. -/
  result : s.ph = .emit → s.res = resultOf s.w s.recStart

/-- The pairs of phases the transition table of R240 allows, with the frame mode and `TERM` before the step where the
table asks for them. Reset, which leads to IDLE from any phase, is not among them. -/
def allowedTransition (single term : Bool) (p q : Phase) : Bool :=
  match p, q with
  | .idle, .mark => true
  | .mark, .size => true
  | .mark, .done => !single
  | .mark, .fault => true
  | .size, .data => true
  | .size, .fault => true
  | .data, .hdec => true
  | .data, .fault => true
  | .hdec, .tgt => true
  | .hdec, .fault => true
  | .tgt, .pdif => true
  | .tgt, .fault => true
  | .pdif, .bdif => true
  | .pdif, .fault => true
  | .bdif, .emit => true
  | .emit, .mark => !single
  | .emit, .done => single
  | .fault, .mark => !term && !single
  | .fault, .done => !term && single
  | .emit, .idle => true
  | .fault, .idle => true
  | .done, .idle => true
  | _, _ => false

/-- The table of R236: the phases in which a command is accepted with an effect. CMD.ABORT in IDLE is accepted
without effect and so is not listed. Operations that are no commands are not accepted from HOST. -/
def acceptsCommand (s : State) : Instr → Bool
  | .cmdStart => s.ph == .idle
  | .cmdNext => s.ph == .emit || (s.ph == .fault && !s.term)
  | .cmdAbort => s.ph == .emit || s.ph == .fault || s.ph == .done
  | _ => false

/-- The domain of the 64-bit positions (R6, D20, U8): the bytes consumed and the bytes still offered are fewer than
2^64 together. -/
def State.inDomain (s : State) : Prop := s.pos + s.unread.length < 2 ^ 64

/-- `s` and `t` agree on everything the data path reads: they may differ only in the result registers and in what
HOST has read or rendered (R28, R311). -/
def agreeOnDataPath (s t : State) : Prop :=
  s = { t with res := s.res, hostData := s.hostData, decimals := s.decimals }

/-- The value of an ASCII hex digit of either case; none for any other byte (R200). -/
def hexDigitValue (b : Byte) : Option Nat :=
  let n := b.toNat
  if 0x30 ≤ n ∧ n ≤ 0x39 then some (n - 0x30)
  else if 0x61 ≤ n ∧ n ≤ 0x66 then some (n - 0x61 + 10)
  else if 0x41 ≤ n ∧ n ≤ 0x46 then some (n - 0x41 + 10)
  else none

/-- The number hex digits denote, most significant first, after the digits already read as `acc`. -/
def hexValue (acc : Nat) : List Byte → Option Nat
  | [] => some acc
  | b :: bs =>
    match hexDigitValue b with
    | some d => hexValue (acc * 16 + d) bs
    | none => none

/-- The number a target's text denotes: its prefix `0x`, then hex digits (R200, D10). -/
def hexTextValue (text : List Byte) : Option Nat :=
  match text with
  | 0x30 :: 0x78 :: digits => hexValue 0 digits
  | _ => none

end Sys2Proof.Machine
end

