-- ==== Sys2Proof/Certificates/Slice0/Obligations.lean ====
section
/-! DEFINITION. The statements about YABE-CORE. Each docstring names the rule it formalises; OBLIGATIONS.json lists them.
An operation's result is an equation for the whole next state: what it does not name is unchanged. Its `slot := n` leaves
open the one field that is the model's own, the place in the phase's group (log entry 2), which other statements fix. -/

open Sys2Proof Sys2Proof.Machine

/-! ## Selection, decoding, encoding -/

/-- A step performs the operation that is selected: CORE's by the phase and its place (R23, R104), HOST's by the word
written to `CMD` (R106), the word of `withFetchWord` too, and HOST's rendering (R201). In a wait state CORE has no step of
its own (R240), so with no input left nothing moves; a word that is no command does nothing (R35). The inputs and the place
are the model's (log entries 2, 3). -/
def Obligations.StepPerformsSelectedOperation : Prop :=
  ∀ (s : State) (i : Instr), i.wellFormed = true →
    (s.inputs = [] → decode (.sequencer s.ph.code s.slot) = .ok i → step s = exec i s) ∧
    (∀ rest, s.inputs = .core :: rest → decode (.sequencer s.ph.code s.slot) = .ok i →
      step s = exec i { s with inputs := rest }) ∧
    (∀ word rest, s.inputs = .hostWrite 1 word :: rest → decode (.command word) = .ok i →
      step s = exec i { s with inputs := rest }) ∧
    (∀ nbits w, decodeTableWord nbits w = some i → step (s.withFetchWord nbits w) = exec i s) ∧
    (∀ rest, s.inputs = .hostRender :: rest → decode .collaborator = .ok i →
      step s = exec i { s with inputs := rest }) ∧
    (s.inputs = [] → s.ph.isRun = false → step s = .next s) ∧
    (∀ word rest, s.inputs = .hostWrite 1 word :: rest → (∀ j, decode (.command word) ≠ .ok j) →
      step s = .next { s with inputs := rest })

/-- Words from the opcode table and the phase table decode to the operations they stand for. -/
def Obligations.SampleWordsDecode : Prop :=
  decodeTableWord 32 0x00000001 = some .cmdStart ∧ decodeTableWord 32 0x00000002 = some .cmdNext ∧
  decodeTableWord 32 0x00000003 = some .cmdAbort ∧ decodeTableWord 32 0x00000000 = none ∧
  decodeTableWord 32 0x00000004 = none ∧ decodeTableWord 32 0x80000001 = none ∧
  decode (.sequencer 1 0) = .ok .frMark ∧ decode (.sequencer 4 0) = .ok .hdChk ∧
  decode (.sequencer 5 1) = .ok .dfTgt ∧ decode (.sequencer 7 0) = .ok .dfBdif ∧
  decode (.emission 0) = .ok .outEmit

/-- F-CMD (R106): 1, 2, 3 are the commands; 0 and every value above 3 are no operation, so a write of one leaves the
state. All 32 bits count. -/
def Obligations.CommandWordsAreComparedWhole : Prop :=
  decodeCommand 1 = .ok .cmdStart ∧ decodeCommand 2 = .ok .cmdNext ∧ decodeCommand 3 = .ok .cmdAbort ∧
  ∀ word : Word, word ≠ 1 → word ≠ 2 → word ≠ 3 →
    (∀ i, decodeCommand word ≠ .ok i) ∧ ∀ s : State, commandWrite word s = .settled (.next s)

/-- Every operation has one selector and every well-formed selector one operation (R104, R106). -/
def Obligations.SelectorsAndOperationsMatch : Prop :=
  (∀ i : Instr, (encode i).wellFormed = true ∧ decode (encode i) = .ok i) ∧
  (∀ x : Selector, x.wellFormed = true → ∃ i, decode x = .ok i ∧ encode i = x)

/-- The byte-exact round trip of a header, both ways (R169). -/
def Obligations.HeaderDecodeEncodeRoundTrip : Prop :=
  (∀ h : Bytes 80, encodeHeader (decodeHeader h) = h.toList) ∧
  (∀ f : HeaderFields, (encodeHeader f).length = 80 ∧ decodeHeader (toBytes 80 (encodeHeader f)) = f)

/-- A record frame decodes to what was encoded, with the bytes after it left, and every frame that decodes is the
encoding of what it decodes to (R91, R93). -/
def Obligations.RecordFrameDecodeEncodeRoundTrip : Prop :=
  (∀ (f : Frame) (rest : List Byte), f.data.length < 2 ^ 31 → decodeFrame (encodeFrame f ++ rest) = .ok (f, rest)) ∧
  (∀ (b rest : List Byte) (f : Frame), decodeFrame b = .ok (f, rest) →
    b = encodeFrame f ++ rest ∧ f.data.length < 2 ^ 31)

/-- F-CMP as a word (R99): with `W` = `le_uint(c[0:4))`, exponent = `W[31:24]` and mantissa = `W[23:0]`; the example
bytes `ff ff 00 1d` give `W` = 0x1d00ffff. The encoder is the inverse. -/
def Obligations.CompactTargetIsSlicesOfItsWord : Prop :=
  (∀ b : Bytes 4, (decodeCompact b).exponent = (leWord b).extractLsb 31 24 ∧
    (decodeCompact b).mantissa = (leWord b).extractLsb 23 0 ∧ encodeCompact (decodeCompact b) = b) ∧
  (∀ c : Compact, decodeCompact (encodeCompact c) = c) ∧
  leWord #v[0xff, 0xff, 0x00, 0x1d] = 0x1d00ffff

/-- `HDR` of the notation is the inverse of the HD.* field extraction (R109). -/
def Obligations.HeaderTextIsInverseOfFieldExtraction : Prop :=
  ∀ h : HeaderText, h.wellFormed = true →
    h.expand.length = 80 ∧
    (decodeHeader (toBytes 80 h.expand)).version.toNat = h.version ∧
    (decodeHeader (toBytes 80 h.expand)).prevHash.toList = h.prev ∧
    (decodeHeader (toBytes 80 h.expand)).merkleRoot.toList = h.merkle ∧
    (decodeHeader (toBytes 80 h.expand)).timestamp.toNat = h.time ∧
    (decodeHeader (toBytes 80 h.expand)).bits.toList = h.bits ∧
    (decodeHeader (toBytes 80 h.expand)).nonce.toNat = h.nonce

/-- Changing byte `i` of a header changes the one field whose range holds `i` and no other (R170, R96). -/
def Obligations.HeaderByteBelongsToOneField : Prop :=
  ∀ (h : Bytes 80) (i : Fin 80) (b : Byte), b ≠ h[i] →
    ((decodeHeader (h.set i b)).version ≠ (decodeHeader h).version ↔ i.val < 4) ∧
    ((decodeHeader (h.set i b)).prevHash ≠ (decodeHeader h).prevHash ↔ 4 ≤ i.val ∧ i.val < 36) ∧
    ((decodeHeader (h.set i b)).merkleRoot ≠ (decodeHeader h).merkleRoot ↔ 36 ≤ i.val ∧ i.val < 68) ∧
    ((decodeHeader (h.set i b)).timestamp ≠ (decodeHeader h).timestamp ↔ 68 ≤ i.val ∧ i.val < 72) ∧
    ((decodeHeader (h.set i b)).bits ≠ (decodeHeader h).bits ↔ 72 ≤ i.val ∧ i.val < 76) ∧
    ((decodeHeader (h.set i b)).nonce ≠ (decodeHeader h).nonce ↔ 76 ≤ i.val)

/-! ## FRAMER -/

/-- FR.MARK (R131): four bytes give the marker; no byte in LOOP mode is the end; fewer than four otherwise raise
MARK_SHORT at the position before the read. Every register the state equation does not name is unchanged. -/
def Obligations.FrMarkReadsMarkerOrEndsOrRaises : Prop :=
  (∀ (s : State) (a b c d : Byte) (rest : List Byte), s.unread = a :: b :: c :: d :: rest →
    (∃ n, exec .frMark s = .next { s with
      recStart := s.pos, marker := #v[a, b, c, d], pos := s.pos + 4, unread := rest, ph := .size, slot := n })) ∧
  (∀ s : State, s.unread = [] → s.eos = true → s.single = false →
    (∃ n, exec .frMark s = .next { s with ph := .done, slot := n })) ∧
  (∀ s : State, s.unread.length < 4 → s.eos = true → (s.unread ≠ [] ∨ s.single = true) →
    (∃ n, exec .frMark s = .next { s with
      pos := s.pos + s.unread.length, unread := [], err := ⟨1, 1, s.pos, s.recIdx⟩, term := true,
      ph := .fault, slot := n }))

/-- FR.SIZE (R132): four bytes give the signed size; a negative one is stored and raises NEG_SIZE; fewer than four
bytes raise SIZE_SHORT. -/
def Obligations.FrSizeReadsSignedSizeOrRaises : Prop :=
  (∀ (s : State) (a b c d : Byte) (rest : List Byte), s.unread = a :: b :: c :: d :: rest →
    ∃ z : Word, z.toInt = leSint32 [a, b, c, d] ∧
      (0 ≤ z.toInt → (∃ n, exec .frSize s = .next { s with
        size := z, pos := s.pos + 4, unread := rest, ph := .data, slot := n })) ∧
      (z.toInt < 0 → (∃ n, exec .frSize s = .next { s with
        size := z, pos := s.pos + 4, unread := rest, err := ⟨1, 4, s.pos, s.recIdx⟩, term := true,
        ph := .fault, slot := n }))) ∧
  (∀ s : State, s.unread.length < 4 → s.eos = true →
    (∃ n, exec .frSize s = .next { s with
      pos := s.pos + s.unread.length, unread := [], err := ⟨1, 2, s.pos, s.recIdx⟩, term := true,
      ph := .fault, slot := n }))

/-- FR.DATA (R133): `SIZE` bytes are consumed, `LEN` = `SIZE`, `HBUF` takes the first min(`SIZE`, 80) of them and keeps
its other bytes; fewer bytes raise DATA_SHORT and write neither. -/
def Obligations.FrDataKeepsHeaderBytesOrRaises : Prop :=
  (∀ (s : State) (data rest : List Byte), 0 ≤ s.sizeInt → s.unread = data ++ rest →
    (data.length : Int) = s.sizeInt →
    ∃ h : Bytes 80, (∀ (i : Nat) (hi : i < 80) (hd : i < data.length), h[i] = data[i]) ∧
      (∀ (i : Nat) (hi : i < 80), data.length ≤ i → h[i] = s.hbuf[i]) ∧
      (∃ n, exec .frData s = .next { s with
        len := s.size, hbuf := h, pos := s.pos + data.length, unread := rest, ph := .hdec, slot := n })) ∧
  (∀ s : State, (s.unread.length : Int) < s.sizeInt → s.eos = true →
    (∃ n, exec .frData s = .next { s with
      pos := s.pos + s.unread.length, unread := [], err := ⟨1, 3, s.pos, s.recIdx⟩, term := true,
      ph := .fault, slot := n }))

/-- FR.NEXT (R134). -/
def Obligations.FrNextDisposesOfRecord : Prop :=
  ∀ s : State,
    (s.single = false → (∃ n, exec .frNext s = .next { s with
      recIdx := s.recIdx + 1, err := ⟨0, 0, 0, 0⟩, ph := .mark, slot := n })) ∧
    (s.single = true → (∃ n, exec .frNext s = .next { s with
      recIdx := s.recIdx + 1, err := ⟨0, 0, 0, 0⟩, ph := .done, slot := n }))

/-- While STREAM has offered too few bytes and not ended, CORE waits inside the read and nothing changes (R78, U9). That
waiting is a step that leaves the state is the model's choice (log entry 4). -/
def Obligations.ReadsWaitForStream : Prop :=
  ∀ s : State, s.eos = false →
    (s.unread.length < 4 → exec .frMark s = .next s ∧ exec .frSize s = .next s) ∧
    ((s.unread.length : Int) < s.sizeInt → exec .frData s = .next s)

/-! ## HDEC -/

/-- HD.CHK (R160): the comparison is with 80 exactly. -/
def Obligations.HdChkRaisesBelowEightyBytes : Prop :=
  (∀ s : State, 80 ≤ s.len.toNat → (∃ n, exec .hdChk s = .next { s with slot := n })) ∧
  (∀ s : State, s.len.toNat < 80 → (∃ n, exec .hdChk s = .next { s with
    err := ⟨2, 0, s.recStart + 8, s.recIdx⟩, term := false, ph := .fault, slot := n }))

/-- HD.VER, HD.TIME, HD.NONCE (R161, R164, R166): the unsigned little-endian value of four header bytes. -/
def Obligations.HeaderIntegersAreLittleEndian : Prop :=
  ∀ s : State,
    (∃ v : Word,
      v.toNat = s.hbuf[0].toNat + 256 * s.hbuf[1].toNat + 65536 * s.hbuf[2].toNat + 16777216 * s.hbuf[3].toNat ∧
      (∃ n, exec .hdVer s = .next { s with w := { s.w with version := v }, slot := n })) ∧
    (∃ v : Word,
      v.toNat = s.hbuf[68].toNat + 256 * s.hbuf[69].toNat + 65536 * s.hbuf[70].toNat + 16777216 * s.hbuf[71].toNat ∧
      (∃ n, exec .hdTime s = .next { s with w := { s.w with timestamp := v }, slot := n })) ∧
    (∃ v : Word,
      v.toNat = s.hbuf[76].toNat + 256 * s.hbuf[77].toNat + 65536 * s.hbuf[78].toNat + 16777216 * s.hbuf[79].toNat ∧
      (∃ n, exec .hdNonce s = .next { s with w := { s.w with nonce := v }, slot := n }))

/-- HD.PREV, HD.MRKL, HD.BITS (R162, R163, R165): bytes in wire order, not reversed. -/
def Obligations.HeaderBytesKeepWireOrder : Prop :=
  ∀ s : State,
    (∃ v : Bytes 32, (∀ (i : Nat) (h : i < 32), v[i] = s.hbuf[4 + i]) ∧
      (∃ n, exec .hdPrev s = .next { s with w := { s.w with prevHash := v }, slot := n })) ∧
    (∃ v : Bytes 32, (∀ (i : Nat) (h : i < 32), v[i] = s.hbuf[36 + i]) ∧
      (∃ n, exec .hdMrkl s = .next { s with w := { s.w with merkleRoot := v }, slot := n })) ∧
    (∃ v : Bytes 4, (∀ (i : Nat) (h : i < 4), v[i] = s.hbuf[72 + i]) ∧
      (∃ n, exec .hdBits s = .next { s with w := { s.w with bits := v }, slot := n }))

/-- HD.PAY (R167): the payload is counted from offset 80 exactly. -/
def Obligations.HdPayCountsPayloadFromEighty : Prop :=
  ∀ s : State, 80 ≤ s.len.toNat → ∃ v : Word, v.toNat = s.len.toNat - 80 ∧
    (∃ n, exec .hdPay s = .next { s with w := { s.w with payloadLen := v }, ph := .tgt, slot := n })

/-- The HDEC and TGT rows of R240 and R23: with `LEN` at least 80 the eight HDEC operations lead to TGT with every header
latch the field of `HBUF` it stands for, so they depend on `HBUF` and `LEN` alone (R168); with the exponent in range the
two TGT operations lead to PDIF. That each operation is a step is R11 (log entry 2). -/
def Obligations.HdecAndTgtGroupsRunInOrder : Prop :=
  (∀ s : State, s.ph = .hdec → s.slot = 0 → s.inputs = [] → 80 ≤ s.len.toNat →
    ∃ v : Word, v.toNat = s.len.toNat - 80 ∧
      Host.Core.run Sys2Proof.core 8 s = .next { s with
        ph := .tgt
        slot := 0
        w := { s.w with
          version := (decodeHeader s.hbuf).version
          prevHash := (decodeHeader s.hbuf).prevHash
          merkleRoot := (decodeHeader s.hbuf).merkleRoot
          timestamp := (decodeHeader s.hbuf).timestamp
          bits := (decodeHeader s.hbuf).bits
          nonce := (decodeHeader s.hbuf).nonce
          payloadLen := v } }) ∧
  (∀ s : State, s.ph = .tgt → s.slot = 0 → s.inputs = [] → 3 ≤ s.w.bits[3].toNat → s.w.bits[3].toNat ≤ 32 →
    ∃ (m : BitVec 24) (t : Word256),
      m.toNat = s.w.bits[0].toNat + 256 * s.w.bits[1].toNat + 65536 * s.w.bits[2].toNat ∧
      t.toNat = m.toNat * 256 ^ (s.w.bits[3].toNat - 3) ∧
      Host.Core.run Sys2Proof.core 2 s = .next { s with
        ph := .pdif
        slot := 0
        w := { s.w with exp := s.w.bits[3], mant := m, target := t } })

/-! ## DIFF -/

/-- DF.UNPK (R190): exponent `c[3]`, mantissa `c[0] + 256 c[1] + 65536 c[2]`, the sign bit included. -/
def Obligations.DfUnpkSplitsExponentAndMantissa : Prop :=
  ∀ s : State, ∃ m : BitVec 24,
    m.toNat = s.w.bits[0].toNat + 256 * s.w.bits[1].toNat + 65536 * s.w.bits[2].toNat ∧
    (∃ n, exec .dfUnpk s = .next { s with w := { s.w with exp := s.w.bits[3], mant := m }, slot := n })

/-- DF.TGT (R191): in range the target is the mathematical product; below 3 EXP_LOW, above 32 EXP_HIGH, whatever the
mantissa. -/
def Obligations.DfTgtAssemblesTargetOrRaises : Prop :=
  (∀ s : State, 3 ≤ s.w.exp.toNat → s.w.exp.toNat ≤ 32 → ∃ t : Word256,
    t.toNat = s.w.mant.toNat * 256 ^ (s.w.exp.toNat - 3) ∧
    (∃ n, exec .dfTgt s = .next { s with w := { s.w with target := t }, ph := .pdif, slot := n })) ∧
  (∀ s : State, s.w.exp.toNat < 3 → (∃ n, exec .dfTgt s = .next { s with
    err := ⟨3, 1, s.recStart + 80, s.recIdx⟩, term := false, ph := .fault, slot := n })) ∧
  (∀ s : State, 32 < s.w.exp.toNat → (∃ n, exec .dfTgt s = .next { s with
    err := ⟨3, 2, s.recStart + 80, s.recIdx⟩, term := false, ph := .fault, slot := n }))

/-- DF.TGT is a left shift by 8 × (e − 3); the target as 32 bytes, most significant first, has the mantissa's three bytes
at positions 32 − e, 33 − e and 34 − e and zero everywhere else (R204). -/
def Obligations.TargetHoldsMantissaBytesByExponent : Prop :=
  ∀ s t : State, 3 ≤ s.w.exp.toNat → s.w.exp.toNat ≤ 32 → exec .dfTgt s = .next t →
    t.w.target.toNat = s.w.mant.toNat <<< (8 * (s.w.exp.toNat - 3)) ∧ 8 * (s.w.exp.toNat - 3) ≤ 232 ∧
    ∀ k : Nat, k < 32 →
      t.w.target.toNat / 256 ^ (31 - k) % 256 =
        if k = 32 - s.w.exp.toNat then s.w.mant.toNat / 65536
        else if k = 33 - s.w.exp.toNat then s.w.mant.toNat / 256 % 256
        else if k = 34 - s.w.exp.toNat then s.w.mant.toNat % 256
        else 0

/-- DF.PDIF (R196, R205): the exact quotient and remainder of 2^224 − 1 by the target; a zero target raises
DivisionByZero / PDIF. -/
def Obligations.DfPdifDividesGenesisTargetExactly : Prop :=
  (∀ s : State, s.w.target ≠ 0 → ∃ q r : Word256,
    q.toNat * s.w.target.toNat + r.toNat = 2 ^ 224 - 1 ∧ r.toNat < s.w.target.toNat ∧
    (∃ n, exec .dfPdif s = .next { s with w := { s.w with pq := q, pr := r }, ph := .bdif, slot := n })) ∧
  (∀ s : State, s.w.target = 0 → (∃ n, exec .dfPdif s = .next { s with
    err := ⟨4, 1, s.recStart + 80, s.recIdx⟩, term := false, ph := .fault, slot := n }))

/-- DF.BDIF (R197), fused with OUT.EMIT (R230): the exact quotient and remainder of 65535 × 2^208 by the target, and the
result registers written in the same step; a zero target raises DivisionByZero / BDIF. -/
def Obligations.DfBdifDividesTruncatedTargetAndEmits : Prop :=
  (∀ s : State, s.w.target ≠ 0 → ∃ (q r : Word256) (o : Results),
    q.toNat * s.w.target.toNat + r.toNat = 65535 * 2 ^ 208 ∧ r.toNat < s.w.target.toNat ∧
    o.target = s.w.target ∧ o.pdiffQ = s.w.pq ∧ o.pdiffR = s.w.pr ∧ o.bdiffQ = q ∧ o.bdiffR = r ∧
    o.version = s.w.version ∧ o.payloadPos = s.recStart + 88 ∧
    (∃ n, exec .dfBdif s = .next { s with w := { s.w with bq := q, br := r }, res := o, ph := .emit, slot := n }) ∧
    exec .outEmit { s with w := { s.w with bq := q, br := r } } = exec .dfBdif s) ∧
  (∀ s : State, s.w.target = 0 → (∃ n, exec .dfBdif s = .next { s with
    err := ⟨4, 2, s.recStart + 80, s.recIdx⟩, term := false, ph := .fault, slot := n }))

/-- The bounds of the quotients and remainders (R208). -/
def Obligations.QuotientAndRemainderBounds : Prop :=
  (∀ s t : State, s.w.target ≠ 0 → exec .dfPdif s = .next t →
    t.w.pq.toNat ≤ 2 ^ 224 - 1 ∧ (s.w.target = 1 → t.w.pq.toNat = 2 ^ 224 - 1) ∧
    t.w.pr.toNat < s.w.target.toNat ∧ (t.w.pq = 0 ↔ Config.genesisTarget.toNat < s.w.target.toNat)) ∧
  (∀ s t : State, s.w.target ≠ 0 → exec .dfBdif s = .next t →
    t.w.bq.toNat ≤ 65535 * 2 ^ 208 ∧ t.w.br.toNat < s.w.target.toNat ∧
    (t.w.bq = 0 ↔ Config.genesisTargetTruncated.toNat < s.w.target.toNat))

/-- DF.HEX (R200): `0`, `x`, then the 64 hex digits of the target, most significant first, in the case `HEX_CASE` says;
nothing else changes. -/
def Obligations.DfHexWritesSixtyFourDigits : Prop :=
  ∀ s : State, ∃ v : Bytes 66, v[0] = 0x30 ∧ v[1] = 0x78 ∧
    (∀ (i : Nat) (h : i < 64), v[2 + i] = hexDigit Config.hexCase (s.w.target.toNat / 16 ^ (63 - i) % 16)) ∧
    exec .dfHex s = .next { s with res := { s.res with targetHex := v } }

/-- A target's text denotes the target, for both cases of the digits (R200, D10). -/
def Obligations.TargetTextDenotesTarget : Prop :=
  ∀ (c : HexCase) (t : Word256), hexTextValue (targetText c t).toList = some t.toNat

/-- DF.DEC changes no register: HOST renders the two ratios of the result it holds (R201); without a result the model
refuses, as it refuses the reads the rendering needs (R32). That HOST does it and how is log entry 9. -/
def Obligations.DfDecRendersHeldRatios : Prop :=
  (∀ s : State, s.ph = .emit → ∃ p b : List Char,
    p = decRender (s.res.pdiffQ.toNat * s.res.target.toNat + s.res.pdiffR.toNat) s.res.target.toNat ∧
    b = decRender (s.res.bdiffQ.toNat * s.res.target.toNat + s.res.bdiffR.toNat) s.res.target.toNat ∧
    exec .dfDec s = .next { s with decimals := some (p, b) }) ∧
  (∀ s : State, s.ph ≠ .emit → exec .dfDec s = .refused (.resultNotReady 25))

/-- A ratio with a finite decimal expansion is rendered exactly, whatever the renderer (R201; notation: log entry 8). -/
def Obligations.FiniteExpansionsAreRenderedExactly : Prop :=
  ∀ n d k : Nat, 0 < d → d ∣ n * 10 ^ k → denotes (decRender n d) n d = true

/-! ## Output and commands -/

/-- OUT.EMIT (R230): every result register, RDY, and nothing else; it is part of the DF.BDIF step that succeeds. -/
def Obligations.OutEmitCommitsEveryResultRegister : Prop :=
  ∀ s : State, ∃ (o : Results), (∃ n, exec .outEmit s = .next { s with res := o, ph := .emit, slot := n }) ∧
    o.version = s.w.version ∧ o.prevHash = s.w.prevHash ∧ o.merkleRoot = s.w.merkleRoot ∧
    o.timestamp = s.w.timestamp ∧ o.bitsRaw = s.w.bits ∧
    o.bitsU32.toNat = s.w.bits[0].toNat + 256 * s.w.bits[1].toNat + 65536 * s.w.bits[2].toNat
      + 16777216 * s.w.bits[3].toNat ∧
    o.nonce = s.w.nonce ∧ o.target = s.w.target ∧
    hexTextValue o.targetHex.toList = some s.w.target.toNat ∧
    exec .dfHex s = .next { s with res := { s.res with targetHex := o.targetHex } } ∧
    o.pdiffQ = s.w.pq ∧ o.pdiffR = s.w.pr ∧ o.bdiffQ = s.w.bq ∧ o.bdiffR = s.w.br ∧
    o.payloadLen = s.w.payloadLen ∧ o.payloadPos = s.recStart + 88 ∧
    (s.w.target ≠ 0 → ∃ q r : Word256, exec .dfBdif s = exec .outEmit { s with w := { s.w with bq := q, br := r } })

/-- CMD.START (R233). -/
def Obligations.CmdStartBeginsRunFromIdle : Prop :=
  (∀ s : State, s.ph = .idle → (∃ n, exec .cmdStart s = .next { s with
    pos := 0, recIdx := 0, recStart := 0, ph := .mark, slot := n })) ∧
  (∀ s : State, s.ph ≠ .idle → exec .cmdStart s = .next s)

/-- CMD.NEXT (R234): performs FR.NEXT from EMIT and from a record-scoped FAULT; it is ignored from a terminal one. -/
def Obligations.CmdNextPerformsFrNextWhereAccepted : Prop :=
  (∀ s : State, (s.ph = .emit ∨ (s.ph = .fault ∧ s.term = false)) →
    (∃ n, exec .cmdNext s = .next { s with
      recIdx := s.recIdx + 1, err := ⟨0, 0, 0, 0⟩, ph := if s.single then .done else .mark, slot := n }) ∧
    exec .cmdNext s = exec .frNext s) ∧
  (∀ s : State, s.ph ≠ .emit → (s.ph = .fault → s.term = true) → exec .cmdNext s = .next s)

/-- CMD.ABORT (R235) from EMIT, FAULT and DONE: the registers with a reset value take it, `CTRL` and the stream are kept;
from IDLE nothing changes, and in a run phase it is ignored. The unspecified registers may hold anything (R42). -/
def Obligations.CmdAbortRestoresResetValuesKeepsCtrl : Prop :=
  (∀ s : State, (s.ph = .emit ∨ s.ph = .fault ∨ s.ph = .done) →
    ∃ t, exec .cmdAbort s = .next t ∧ t.ph = .idle ∧ t.pos = 0 ∧ t.recIdx = 0 ∧ t.recStart = 0 ∧
      t.err = ⟨0, 0, 0, 0⟩ ∧ t.term = false ∧ t.status = 0 ∧ t.ctrl = s.ctrl ∧
      t.unread = s.unread ∧ t.eos = s.eos ∧ t.inputs = s.inputs ∧ t.hostData = s.hostData ∧
      t.decimals = s.decimals) ∧
  (∀ s : State, s.ph = .idle → exec .cmdAbort s = .next s) ∧
  (∀ s : State, s.ph.isRun = true → exec .cmdAbort s = .next s)

/-- A command in a phase that does not accept it is ignored: no state changes (R236). -/
def Obligations.UnacceptedCommandsAreIgnored : Prop :=
  ∀ (s : State) (i : Instr), (i = .cmdStart ∨ i = .cmdNext ∨ i = .cmdAbort) →
    (acceptsCommand s i = false → exec i s = .next s) ∧
    (acceptsCommand s i = true → ∃ t, exec i s = .next t ∧ t.ph ≠ s.ph)

/-- No cancellation (R309): in a run phase any HOST write is ignored and not queued. -/
def Obligations.RunPhasesIgnoreHostWrites : Prop :=
  ∀ (s : State) (reg : BitVec 6) (v : Word) (rest : List Input), s.ph.isRun = true →
    s.inputs = .hostWrite reg v :: rest → step s = .next { s with inputs := rest }

/-! ## Registers and flags -/

/-- `STATUS` (R36): each bit, the phase's number of R23 in bits 3:0, the reserved ones 0, the words of the wait states, and
`attn` (R280). -/
def Obligations.StatusBitsFollowPhase : Prop :=
  ∀ s : State, s.status.extractLsb 3 0 = s.ph.code ∧
    (s.status.getLsbD 4 = true ↔ s.ph = .emit) ∧ (s.status.getLsbD 5 = true ↔ s.ph = .fault) ∧
    s.status.getLsbD 6 = s.term ∧ (s.status.getLsbD 7 = true ↔ s.ph = .done) ∧
    s.status.extractLsb 31 8 = 0 ∧
    (s.attn = true ↔ s.ph = .emit ∨ s.ph = .fault ∨ s.ph = .done) ∧
    (s.status.extractLsb 3 0).toNat = (match s.ph with
      | .idle => 0 | .mark => 1 | .size => 2 | .data => 3 | .hdec => 4 | .tgt => 5 | .pdif => 6 | .bdif => 7
      | .emit => 8 | .fault => 9 | .done => 10) ∧
    (s.term = false → (s.ph = .idle → s.status = 0x00) ∧ (s.ph = .emit → s.status = 0x18) ∧
      (s.ph = .fault → s.status = 0x29) ∧ (s.ph = .done → s.status = 0x8a)) ∧
    (s.term = true → s.ph = .fault → s.status = 0x69)

/-- `CTRL` (R34): only a HOST write in IDLE changes it, and only bit 0; a step changes it otherwise only by `rst`. -/
def Obligations.CtrlChangesOnlyByHostInIdle : Prop :=
  (∀ (s : State) (v : Word) (rest : List Input), s.inputs = .hostWrite 0 v :: rest →
    (s.ph = .idle → step s = .next { s with inputs := rest, ctrl := v &&& 1 }) ∧
    (s.ph ≠ .idle → step s = .next { s with inputs := rest })) ∧
  (∀ s t : State, step s = .next t → t.ctrl ≠ s.ctrl →
    (∃ v rest, s.inputs = .hostWrite 0 v :: rest ∧ s.ph = .idle) ∨ (∃ rest, s.inputs = .rst :: rest ∧ t.ctrl = 0)) ∧
  (∀ s : State, readReg s 0 = .ok (.uint 32 (s.ctrl.toNat % 2)))

/-- A result register answers a HOST read exactly while RDY = 1; otherwise the read is refused (R32). Each number of 16
to 30 names the register that the table of R20 gives it, with its width and form. -/
def Obligations.ResultReadsNeedReady : Prop :=
  (∀ (s : State) (reg : BitVec 6), 16 ≤ reg.toNat → reg.toNat ≤ 30 →
    (s.rdy = true → readReg s reg = .ok (readResult s.res reg.toNat)) ∧
    (s.rdy = false → readReg s reg = .error (.resultNotReady reg))) ∧
  (∀ s : State, s.ph = .emit →
    readReg s 16 = .ok (.uint 32 s.res.version.toNat) ∧ readReg s 17 = .ok (.bytes s.res.prevHash.toList) ∧
    readReg s 18 = .ok (.bytes s.res.merkleRoot.toList) ∧ readReg s 19 = .ok (.uint 32 s.res.timestamp.toNat) ∧
    readReg s 20 = .ok (.bytes s.res.bitsRaw.toList) ∧ readReg s 21 = .ok (.uint 32 s.res.bitsU32.toNat) ∧
    readReg s 22 = .ok (.uint 32 s.res.nonce.toNat) ∧ readReg s 23 = .ok (.uint 256 s.res.target.toNat) ∧
    readReg s 24 = .ok (.bytes s.res.targetHex.toList) ∧ readReg s 25 = .ok (.uint 256 s.res.pdiffQ.toNat) ∧
    readReg s 26 = .ok (.uint 256 s.res.pdiffR.toNat) ∧ readReg s 27 = .ok (.uint 256 s.res.bdiffQ.toNat) ∧
    readReg s 28 = .ok (.uint 256 s.res.bdiffR.toNat) ∧ readReg s 29 = .ok (.uint 32 s.res.payloadLen.toNat) ∧
    readReg s 30 = .ok (.uint 64 s.res.payloadPos))

/-- A HOST read has no effect on CORE (R237): only the value answered is kept (log entry 13). Each number outside 16 to 30
names the register that the table of R20 gives it; `CMD` and the numbers that name none read 0 (R35). -/
def Obligations.HostReadsHaveNoEffectOnCore : Prop :=
  (∀ (s : State) (reg : BitVec 6) (rest : List Input), s.inputs = .hostRead reg :: rest →
    (∀ v, readReg s reg = .ok v → step s = .next { s with inputs := rest, hostData := some v }) ∧
    ((reg.toNat < 16 ∨ 30 < reg.toNat) → ∃ v, readReg s reg = .ok v)) ∧
  (∀ s : State,
    readReg s 0 = .ok (.uint 32 (s.ctrl.toNat % 2)) ∧ readReg s 2 = .ok (.uint 32 s.status.toNat) ∧
    readReg s 3 = .ok (.uint 8 s.err.code.toNat) ∧ readReg s 4 = .ok (.uint 8 s.err.sub.toNat) ∧
    readReg s 5 = .ok (.uint 64 s.err.pos) ∧ readReg s 6 = .ok (.uint 64 s.err.record) ∧
    readReg s 7 = .ok (.uint 64 s.pos) ∧ readReg s 8 = .ok (.uint 64 s.recIdx) ∧
    readReg s 9 = .ok (.uint 64 s.recStart) ∧ readReg s 10 = .ok (.bytes s.marker.toList) ∧
    readReg s 11 = .ok (.sint 32 s.size.toInt) ∧ readReg s 12 = .ok (.uint 32 s.len.toNat) ∧
    readReg s 32 = .ok (.uint 256 (2 ^ 224 - 1)) ∧ readReg s 33 = .ok (.uint 256 (65535 * 2 ^ 208))) ∧
  (∀ (s : State) (reg : BitVec 6),
    (reg.toNat = 1 ∨ (13 ≤ reg.toNat ∧ reg.toNat ≤ 15) ∨ reg.toNat = 31 ∨ 34 ≤ reg.toNat) →
      readReg s reg = .ok (.uint 32 0))

/-- The two constants have their values in every state, and no HOST write changes anything through their numbers or
through a number that names no register (R30, R31, R33). -/
def Obligations.ConstantsAreReadOnly : Prop :=
  ∀ s : State, readReg s 32 = .ok (.uint 256 (2 ^ 224 - 1)) ∧ readReg s 33 = .ok (.uint 256 (65535 * 2 ^ 208)) ∧
    ∀ (reg : BitVec 6) (v : Word) (rest : List Input), 2 ≤ reg.toNat → s.inputs = .hostWrite reg v :: rest →
      step s = .next { s with inputs := rest }

/-- The values R42 gives after reset. -/
def Obligations.ResetStateHasSpecifiedValues : Prop :=
  State.reset.ph = .idle ∧ State.reset.pos = 0 ∧ State.reset.recIdx = 0 ∧ State.reset.recStart = 0 ∧
  State.reset.ctrl = 0 ∧ State.reset.status = 0 ∧ State.reset.err = ⟨0, 0, 0, 0⟩ ∧ State.reset.attn = false

/-- `rst` in any phase (R300, R302): the registers with a reset value take it, `CTRL` too; the stream stays. -/
def Obligations.RstRestoresResetValuesInAnyPhase : Prop :=
  ∀ (s : State) (rest : List Input), s.inputs = .rst :: rest →
    ∃ t, step s = .next t ∧ t.ph = .idle ∧ t.pos = 0 ∧ t.recIdx = 0 ∧ t.recStart = 0 ∧ t.ctrl = 0 ∧
      t.status = 0 ∧ t.err = ⟨0, 0, 0, 0⟩ ∧ t.attn = false ∧ t.unread = s.unread ∧ t.eos = s.eos ∧ t.inputs = rest

/-! ## Frames and order -/

/-- The STREAM space is read only and consumed in order (R70, R71, R73): an operation that reads leaves every byte at or
beyond the new `POS` as it was and makes the earlier ones unreadable; CMD.START and CMD.ABORT count the same bytes
from 0; every other operation leaves every byte as it was. -/
def Obligations.StreamBytesAreReadOnceAndNeverWritten : Prop :=
  ∀ (i : Instr) (s t : State), exec i s = .next t → ∀ a : Nat,
    ((i = .frMark ∨ i = .frSize ∨ i = .frData) → s.pos ≤ t.pos ∧
      (t.pos ≤ a → t.streamByte a = s.streamByte a) ∧ (a < t.pos → t.streamByte a = none)) ∧
    ((i = .cmdStart ∨ i = .cmdAbort) → t = s ∨ t.streamByte a = s.streamByte (s.pos + a)) ∧
    ((i ≠ .frMark ∧ i ≠ .frSize ∧ i ≠ .frData ∧ i ≠ .cmdStart ∧ i ≠ .cmdAbort) →
      t.streamByte a = s.streamByte a)

/-- A short read consumes what was there (R62, R63): after it `POS` has moved by exactly the bytes that remained and none
is left; a full read delivers exactly `n` bytes in order. -/
def Obligations.ReadsAreFullOrConsumeTheRest : Prop :=
  ∀ (n : Nat) (s : State),
    (n ≤ s.unread.length → ∃ b rest, s.unread = b ++ rest ∧ b.length = n ∧
      memRead n s = (.full b, { s with pos := s.pos + n, unread := rest })) ∧
    (s.unread.length < n → s.eos = true →
      memRead n s = (.short s.unread.length, { s with pos := s.pos + s.unread.length, unread := [] })) ∧
    memRead 0 s = (.full [], s)

/-- A step consumes a prefix of the unread bytes and `POS` counts it; `POS` goes back only to 0, at CMD.START, CMD.ABORT
and `rst` (R21, R73). Only the environment fills the stream: a delivered byte goes behind the others, the end-of-stream
indication sets only that, and binding replaces both, where it is allowed (R78, R303; log entries 3, 14). -/
def Obligations.PositionCountsConsumedBytes : Prop :=
  (∀ s t : State, step s = .next t →
    (∀ b e rest, s.inputs ≠ .bind b e :: rest) → (∀ b rest, s.inputs ≠ .deliver b :: rest) →
    ∃ k, t.unread = s.unread.drop k ∧ k ≤ s.unread.length ∧
      (t.pos = s.pos + k ∨ (k = 0 ∧ t.pos = 0 ∧ (t.ph = .idle ∨ (s.ph = .idle ∧ t.ph = .mark)))) ∧
      (t.eos = s.eos ∨ ∃ rest, s.inputs = .endOfStream :: rest)) ∧
  (∀ (s : State) (b : Byte) (rest : List Input), s.inputs = .deliver b :: rest → s.eos = false →
    step s = .next { s with inputs := rest, unread := s.unread ++ [b] }) ∧
  (∀ (s : State) (rest : List Input), s.inputs = .endOfStream :: rest →
    step s = .next { s with inputs := rest, eos := true }) ∧
  (∀ (s : State) (b : List Byte) (e : Bool) (rest : List Input), s.inputs = .bind b e :: rest →
    (s.ph = .idle ∨ s.ph = .done ∨ (s.ph = .fault ∧ s.term = true) ∨
      (s.unread = [] ∧ s.eos = false ∧ s.pos = 0)) →
    step s = .next { s with inputs := rest, unread := b, eos := e })

/-- A result register changes only by OUT.EMIT, which DF.BDIF performs and DF.HEX is part of, and by the return to the
reset values (R28, R232). -/
def Obligations.ResultsChangeOnlyByEmission : Prop :=
  ∀ (i : Instr) (s t : State), exec i s = .next t → t.res ≠ s.res →
    i = .dfBdif ∨ i = .outEmit ∨ i = .dfHex ∨ i = .cmdAbort

/-- From OUT.EMIT to the next CMD.NEXT, CMD.ABORT or reset no step writes a result register or a frame register
(R32, R238). -/
def Obligations.ResultIsImmutableWhileHeld : Prop :=
  ∀ s t : State, step s = .next t → s.ph = .emit → t.ph = .emit →
    t.res = s.res ∧ t.marker = s.marker ∧ t.size = s.size ∧ t.len = s.len ∧ t.recIdx = s.recIdx ∧
    t.recStart = s.recStart ∧ t.pos = s.pos

/-! ## Trap entry and return -/

/-- Trap entry (R270, R260, R261, R266): an operation that leads to FAULT writes the four error registers and TERM as its
cause says, with the index of the failing record and, for a framing error, `POS` before the read, which is `REC_START` + 4
in SIZE and `REC_START` + 8 in DATA wherever the invariant holds; the result registers and the latches are untouched, and
nothing is output. -/
def Obligations.TrapEntryWritesErrorRegisters : Prop :=
  ∀ (i : Instr) (s t : State), exec i s = .next t → s.ph ≠ .fault → t.ph = .fault →
    (∃ c : Cause, t.err.code = c.code ∧ t.err.sub = c.sub ∧ t.term = c.terminal) ∧
    t.err.record = s.recIdx ∧ (t.term = true ↔ t.err.code = 1) ∧ t.slot = 0 ∧
    t.recIdx = s.recIdx ∧ t.recStart = s.recStart ∧ t.marker = s.marker ∧ t.len = s.len ∧ t.hbuf = s.hbuf ∧
    t.w = s.w ∧ t.res = s.res ∧ t.ctrl = s.ctrl ∧
    ((i = .frMark ∧ t.err = ⟨1, 1, s.pos, s.recIdx⟩) ∨
      (i = .frSize ∧ (t.err = ⟨1, 2, s.pos, s.recIdx⟩ ∨ t.err = ⟨1, 4, s.pos, s.recIdx⟩)) ∨
      (i = .frData ∧ t.err = ⟨1, 3, s.pos, s.recIdx⟩) ∨
      (i = .hdChk ∧ t.err = ⟨2, 0, s.recStart + 8, s.recIdx⟩) ∨
      (i = .dfTgt ∧ (t.err = ⟨3, 1, s.recStart + 80, s.recIdx⟩ ∨ t.err = ⟨3, 2, s.recStart + 80, s.recIdx⟩)) ∨
      (i = .dfPdif ∧ t.err = ⟨4, 1, s.recStart + 80, s.recIdx⟩) ∨
      (i = .dfBdif ∧ t.err = ⟨4, 2, s.recStart + 80, s.recIdx⟩)) ∧
    (s.Inv → s.ph = .size → i = .frSize → t.err.pos = s.recStart + 4) ∧
    (s.Inv → s.ph = .data → i = .frData → t.err.pos = s.recStart + 8) ∧
    (∀ reg : BitVec 6, 16 ≤ reg.toNat → reg.toNat ≤ 30 → readReg t reg = .error (.resultNotReady reg))

/-- The registers every operation but a trap entry, FR.NEXT, CMD.NEXT and CMD.ABORT leaves: `ERR_*` and TERM; and `CTRL`,
which no operation writes (R34, R38, R39). -/
def Obligations.ErrorRegistersChangeOnlyByTrapAndReturn : Prop :=
  ∀ (i : Instr) (s t : State), exec i s = .next t →
    t.ctrl = s.ctrl ∧
    (t.ph ≠ .fault → (t.err = s.err ∨ t.err = ⟨0, 0, 0, 0⟩) ∧ (t.term = s.term ∨ t.term = false) ∧
      (t.err ≠ s.err → i = .frNext ∨ i = .cmdNext ∨ i = .cmdAbort))

/-- No nesting (R276): a step in FAULT either stays there with the same error or leaves with the error cleared. -/
def Obligations.HeldErrorIsNeverOverwritten : Prop :=
  ∀ s t : State, step s = .next t → s.ph = .fault →
    (t.ph = .fault ∧ t.err = s.err ∧ t.term = s.term) ∨ (t.ph ≠ .fault ∧ t.err = ⟨0, 0, 0, 0⟩)

/-- MalformedStream is terminal (R273): CMD.NEXT is ignored and the only exits are CMD.ABORT and reset. -/
def Obligations.TerminalErrorEndsOnlyByAbortOrReset : Prop :=
  ∀ s t : State, step s = .next t → s.ph = .fault → s.term = true →
    t.ph = .fault ∨
    (t.ph = .idle ∧ ((∃ rest, s.inputs = .hostWrite 1 3 :: rest) ∨ (∃ rest, s.inputs = .rst :: rest)))

/-! ## Invariants and the whole machine -/

/-- The invariant holds right after reset. The registers R42 leaves unspecified do not matter to it. -/
def Obligations.InvariantHoldsAtReset : Prop := State.reset.Inv

/-- Every step keeps the invariant: every latch and result filled so far is what the record's header bytes give, phase by
phase, and an error held is one of R261 with the context of R266. -/
def Obligations.StepKeepsInvariant : Prop :=
  ∀ s t : State, s.Inv → step s = .next t → t.Inv

/-- From a state with the invariant no step ends in a fault of the model. -/
def Obligations.SafeStatesNeverFault : Prop :=
  ∀ (s : State) (r : Fault), s.Inv → step s ≠ .fault r

/-- A step is refused only outside the domain: a result read or rendered while RDY = 0 (R32), a stream bound in mid-run,
a byte after the end indication (U6; log entries 9, 13, 14). -/
def Obligations.StepsAreRefusedOnlyOutsideTheDomain : Prop :=
  ∀ (s : State) (r : Refusal), step s = .refused r →
    (s.rdy = false ∧ ((∃ reg rest, s.inputs = .hostRead reg :: rest ∧ 16 ≤ reg.toNat ∧ reg.toNat ≤ 30) ∨
      (∃ rest, s.inputs = .hostRender :: rest))) ∨
    (s.running = true ∧ ∃ b e rest, s.inputs = .bind b e :: rest) ∨
    (s.eos = true ∧ ∃ b rest, s.inputs = .deliver b :: rest)

/-- No transition of `PH` exists but those of R240's table, with the frame mode and TERM where a row asks for them, and
reset. -/
def Obligations.PhaseTransitionsAreTheTables : Prop :=
  ∀ s t : State, s.Inv → step s = .next t →
    t.ph = s.ph ∨ allowedTransition s.single s.term s.ph t.ph = true ∨ (t.ph = .idle ∧ ∃ rest, s.inputs = .rst :: rest)

/-- A held result is exact (R198, R206): both ratios have their quotient and remainder over the same target, and they
differ by (2^208 − 1) / TARGET. -/
def Obligations.HeldResultRatiosAreExact : Prop :=
  ∀ s : State, s.Inv → s.ph = .emit →
    s.res.pdiffQ.toNat * s.res.target.toNat + s.res.pdiffR.toNat = 2 ^ 224 - 1 ∧
    s.res.pdiffR.toNat < s.res.target.toNat ∧
    s.res.bdiffQ.toNat * s.res.target.toNat + s.res.bdiffR.toNat = 65535 * 2 ^ 208 ∧
    s.res.bdiffR.toNat < s.res.target.toNat ∧
    (s.res.pdiffQ.toNat * s.res.target.toNat + s.res.pdiffR.toNat) -
      (s.res.bdiffQ.toNat * s.res.target.toNat + s.res.bdiffR.toNat) = 2 ^ 208 - 1 ∧
    s.res.bitsU32 = leWord s.res.bitsRaw ∧ s.res.bitsRaw = slice s.hbuf 72 4 (Nat.le_of_ble_eq_true rfl) ∧
    s.res.payloadPos = s.recStart + 88 ∧ s.res.payloadLen.toNat + 80 = s.len.toNat

/-- Formatting does not feed back (R311): two states that differ only in the result registers and in what HOST has read
take steps of one kind that lead to states that differ only there. -/
def Obligations.ResultRegistersNeverFeedBack : Prop :=
  ∀ s t : State, agreeOnDataPath s t →
    (∀ s', step s = .next s' → ∃ t', step t = .next t' ∧ agreeOnDataPath s' t') ∧
    (∀ r, step s = .fault r → step t = .fault r) ∧ (∀ r, step s = .refused r → step t = .refused r)

/-- Instances are independent (R75, R285): steps of two of them commute. -/
def Obligations.InstanceStepsCommute : Prop :=
  ∀ (j k : Nat) (b c d : List State), j ≠ k → stepInstance j b = .next c → stepInstance k c = .next d →
    ∃ e, stepInstance k b = .next e ∧ stepInstance j e = .next d

/-- The hardware produces `Run(S, m)` (R12): from IDLE with the stream bound, a HOST that issues START once and NEXT after
every result and every record-scoped error sees exactly the outcomes of the reference function, in order, and the run
ends as it does. -/
def Obligations.HardwareProducesReferenceRun : Prop :=
  ∀ s : State, s.ph = .idle → s.inputs = [] → s.eos = true →
    ∃ t n, step (pushCommand 1 s) = .next t ∧
      (drive n t).1 = (refRun s.unread s.single).1 ∧ (drive n t).2.runEnd = some (refRun s.unread s.single).2
end

