-- ==== Sys2Proof/Laws/Bytes.lean ====
section
/-! SUPPORT. The laws of the byte and integer conversions of R8 and of the byte sequences. -/

namespace Sys2Proof

/-- `le_uint` of `n` bytes is below `256^n`. -/
theorem leUint_lt (b : List Byte) : leUint b < 256 ^ b.length := by
  induction b with
  | nil => simp [leUint]
  | cons x xs ih =>
    have hx : x.toNat < 256 := x.isLt
    rw [leUint, List.length_cons, Nat.pow_succ]
    omega

@[simp] theorem leBytes_length (v n : Nat) : (leBytes v n).length = n := by
  induction n generalizing v with
  | zero => rfl
  | succ n ih => simp [leBytes, ih]

/-- `le_bytes(le_uint(b), |b|) = b` (R169). -/
theorem leBytes_leUint (b : List Byte) : leBytes (leUint b) b.length = b := by
  induction b with
  | nil => rfl
  | cons x xs ih =>
    have hx : x.toNat < 256 := x.isLt
    have hdiv : (x.toNat + 256 * leUint xs) / 256 = leUint xs := by omega
    have hhead : BitVec.ofNat 8 (x.toNat + 256 * leUint xs) = x := by
      apply BitVec.eq_of_toNat_eq
      simp only [BitVec.toNat_ofNat]
      omega
    simp only [leUint, List.length_cons, leBytes, hdiv, hhead, ih]

/-- `le_uint(le_bytes(v, n)) = v` for `v < 256^n` (R8). -/
theorem leUint_leBytes (v n : Nat) (h : v < 256 ^ n) : leUint (leBytes v n) = v := by
  induction n generalizing v with
  | zero =>
    have : v = 0 := by simpa using h
    simp [leBytes, leUint, this]
  | succ n ih =>
    rw [Nat.pow_succ] at h
    have hv : v / 256 < 256 ^ n := by omega
    simp only [leBytes, leUint, ih _ hv, BitVec.toNat_ofNat]
    omega

/-- An assembled 32-bit field loses nothing (R101). -/
theorem leWord_toNat (b : Bytes 4) : (leWord b).toNat = leUint b.toList := by
  have h := leUint_lt b.toList
  simp only [Vector.length_toList] at h
  simp only [leWord, BitVec.toNat_ofNat]
  exact Nat.mod_eq_of_lt (by omega)

/-- `le_sint32` of four bytes is a signed 32-bit value, so `SIZE` holds it (R25, R102). -/
theorem leSint32_toInt (b : List Byte) (h : b.length = 4) : (BitVec.ofInt 32 (leSint32 b)).toInt = leSint32 b := by
  have hb := leUint_lt b
  rw [h] at hb
  rw [BitVec.toInt_ofInt]
  unfold leSint32
  split <;> (rw [Int.bmod_def]; norm_num at *; omega)

@[simp] theorem toBytes_getElem (n : Nat) (b : List Byte) (i : Nat) (h : i < n) :
    (toBytes n b)[i] = b.getD i 0 := by
  simp [toBytes]

/-- A list of exactly `n` bytes is its byte register's content. -/
theorem toBytes_toList (n : Nat) (b : List Byte) (h : b.length = n) : (toBytes n b).toList = b := by
  apply List.ext_getElem
  · simp [h]
  · intro i h1 h2
    rw [Vector.getElem_toList, toBytes_getElem, List.getD_eq_getElem _ _ h2]

@[simp] theorem slice_getElem (h : Bytes 80) (o n : Nat) (inside : o + n ≤ 80) (i : Nat) (hi : i < n) :
    (slice h o n inside)[i] = h[o + i] := by
  simp [slice]

/-- A slice is the byte range of the buffer's bytes (R7, R65). -/
theorem slice_toList (h : Bytes 80) (o n : Nat) (inside : o + n ≤ 80) :
    (slice h o n inside).toList = (h.toList.drop o).take n := by
  apply List.ext_getElem
  · simp
    omega
  · intro i h1 h2
    simp [Vector.getElem_toList]

end Sys2Proof
end

