-- ==== Sys2Proof/Laws/Operands.lean ====
section
/-! SUPPORT. What each operand form and each function of the data path gives, said once. -/

namespace Sys2Proof.Machine

/-- Quotient and remainder of naturals (R8, R205). -/
theorem divmod_spec (a d : Nat) (h : 0 < d) : (divmod a d).1 * d + (divmod a d).2 = a ∧ (divmod a d).2 < d :=
  ⟨by rw [Nat.mul_comm]; exact Nat.div_add_mod a d, Nat.mod_lt _ h⟩

/-- A target with its exponent in range fits 256 bits (R199, R203). -/
theorem targetOf_lt (e m : Nat) (he : e ≤ 32) (hm : m < 2 ^ 24) : targetOf e m < 2 ^ 256 := by
  have h1 : 256 ^ (e - 3) ≤ 256 ^ 29 := Nat.pow_le_pow_right (by decide) (by omega)
  calc m * 256 ^ (e - 3) ≤ m * 256 ^ 29 := Nat.mul_le_mul_left _ h1
    _ < 2 ^ 24 * 256 ^ 29 := Nat.mul_lt_mul_of_pos_right hm (by decide)
    _ = 2 ^ 256 := by decide

/-- Narrowing to a 256-bit register loses nothing below `2^256` (R199). -/
theorem toNat_ofNat_256 (n : Nat) (h : n < 2 ^ 256) : (BitVec.ofNat 256 n).toNat = n := by
  rw [BitVec.toNat_ofNat, Nat.mod_eq_of_lt h]

@[simp] theorem genesisTarget_toNat : Config.genesisTarget.toNat = 2 ^ 224 - 1 := by decide

@[simp] theorem genesisTargetTruncated_toNat : Config.genesisTargetTruncated.toNat = 65535 * 2 ^ 208 := by decide

/-- The header buffer after FR.DATA, byte by byte (R133). -/
@[simp] theorem keepHeader_getElem (data : List Byte) (old : Bytes 80) (i : Nat) (h : i < 80) :
    (keepHeader data old)[i] = (data[i]?).getD old[i] := by
  simp [keepHeader]

/-- A payload's length where R167 states it. -/
theorem payloadLength_toNat (len : Word) (h : 80 ≤ len.toNat) : (payloadLength len).toNat = len.toNat - 80 := by
  have := len.isLt
  simp only [payloadLength, Config.hdrLen, h, if_true, BitVec.toNat_ofNat]
  omega

/-- The text of a target, byte by byte (R200). -/
@[simp] theorem targetText_getElem (c : HexCase) (t : Word256) (i : Nat) (h : i < 66) :
    (targetText c t)[i] =
      if i = 0 then 0x30 else if i = 1 then 0x78
      else hexDigit c ((t.toNat >>> (4 * (63 - (i - 2)))) % 16) := by
  simp [targetText]

/-- Everything a HOST register read can answer (R237, R32). -/
theorem readReg_cases (s : State) (reg : BitVec 6) :
    (16 ≤ reg.toNat ∧ reg.toNat ≤ 30 ∧ s.ph = .emit ∧ readReg s reg = .ok (readResult s.res reg.toNat)) ∨
    (16 ≤ reg.toNat ∧ reg.toNat ≤ 30 ∧ s.ph ≠ .emit ∧ readReg s reg = .error (.resultNotReady reg)) ∨
    ((reg.toNat < 16 ∨ 30 < reg.toNat) ∧ ∃ v, readReg s reg = .ok v) := by
  unfold readReg
  by_cases hr : 16 ≤ reg.toNat ∧ reg.toNat ≤ 30
  · by_cases hp : s.ph = .emit
    · exact .inl ⟨hr.1, hr.2, hp, by simp [hr, State.rdy, hp]⟩
    · exact .inr (.inl ⟨hr.1, hr.2, hp, by simp [hr, State.rdy, hp]⟩)
  · exact .inr (.inr ⟨by omega, _, if_neg hr⟩)

/-- Everything `DEC_RENDER` can give (R201). -/
theorem decRender_cases (n d : Nat) :
    decRender n d = Config.decRenderRaw n d ∨
    ∃ k, decimalPlaces n d = some k ∧ denotes (Config.decRenderRaw n d) n d = false ∧
      decRender n d = plainDecimal n d k := by
  unfold decRender
  rcases hk : decimalPlaces n d with _ | k
  · exact .inl rfl
  · rcases hd : denotes (Config.decRenderRaw n d) n d with _ | _
    · exact .inr ⟨k, rfl, rfl, by simp⟩
    · exact .inl (by simp)

end Sys2Proof.Machine
end

