-- ==== Sys2Proof/Laws/State.lean ====
section
/-! SUPPORT. For each update of the state, one lemma per field it leaves or writes, so that no proof unfolds a
record update. -/

namespace Sys2Proof.Machine

variable (s : State)

/-! ## setPhase -/

@[simp] theorem setPhase_ph (p : Phase) : (setPhase p s).ph = p := rfl
@[simp] theorem setPhase_slot (p : Phase) : (setPhase p s).slot = 0 := rfl
@[simp] theorem setPhase_pos (p : Phase) : (setPhase p s).pos = s.pos := rfl
@[simp] theorem setPhase_recIdx (p : Phase) : (setPhase p s).recIdx = s.recIdx := rfl
@[simp] theorem setPhase_recStart (p : Phase) : (setPhase p s).recStart = s.recStart := rfl
@[simp] theorem setPhase_marker (p : Phase) : (setPhase p s).marker = s.marker := rfl
@[simp] theorem setPhase_size (p : Phase) : (setPhase p s).size = s.size := rfl
@[simp] theorem setPhase_len (p : Phase) : (setPhase p s).len = s.len := rfl
@[simp] theorem setPhase_hbuf (p : Phase) : (setPhase p s).hbuf = s.hbuf := rfl
@[simp] theorem setPhase_w (p : Phase) : (setPhase p s).w = s.w := rfl
@[simp] theorem setPhase_res (p : Phase) : (setPhase p s).res = s.res := rfl
@[simp] theorem setPhase_err (p : Phase) : (setPhase p s).err = s.err := rfl
@[simp] theorem setPhase_term (p : Phase) : (setPhase p s).term = s.term := rfl
@[simp] theorem setPhase_ctrl (p : Phase) : (setPhase p s).ctrl = s.ctrl := rfl
@[simp] theorem setPhase_unread (p : Phase) : (setPhase p s).unread = s.unread := rfl
@[simp] theorem setPhase_eos (p : Phase) : (setPhase p s).eos = s.eos := rfl
@[simp] theorem setPhase_inputs (p : Phase) : (setPhase p s).inputs = s.inputs := rfl
@[simp] theorem setPhase_hostData (p : Phase) : (setPhase p s).hostData = s.hostData := rfl
@[simp] theorem setPhase_decimals (p : Phase) : (setPhase p s).decimals = s.decimals := rfl
@[simp] theorem setPhase_epoch (p : Phase) : (setPhase p s).epoch = s.epoch := rfl

/-! ## nextPlace -/

@[simp] theorem nextPlace_ph : (nextPlace s).ph = s.ph := rfl
@[simp] theorem nextPlace_slot : (nextPlace s).slot = s.slot + 1 := rfl
@[simp] theorem nextPlace_pos : (nextPlace s).pos = s.pos := rfl
@[simp] theorem nextPlace_recIdx : (nextPlace s).recIdx = s.recIdx := rfl
@[simp] theorem nextPlace_recStart : (nextPlace s).recStart = s.recStart := rfl
@[simp] theorem nextPlace_marker : (nextPlace s).marker = s.marker := rfl
@[simp] theorem nextPlace_size : (nextPlace s).size = s.size := rfl
@[simp] theorem nextPlace_len : (nextPlace s).len = s.len := rfl
@[simp] theorem nextPlace_hbuf : (nextPlace s).hbuf = s.hbuf := rfl
@[simp] theorem nextPlace_w : (nextPlace s).w = s.w := rfl
@[simp] theorem nextPlace_res : (nextPlace s).res = s.res := rfl
@[simp] theorem nextPlace_err : (nextPlace s).err = s.err := rfl
@[simp] theorem nextPlace_term : (nextPlace s).term = s.term := rfl
@[simp] theorem nextPlace_ctrl : (nextPlace s).ctrl = s.ctrl := rfl
@[simp] theorem nextPlace_unread : (nextPlace s).unread = s.unread := rfl
@[simp] theorem nextPlace_eos : (nextPlace s).eos = s.eos := rfl
@[simp] theorem nextPlace_inputs : (nextPlace s).inputs = s.inputs := rfl
@[simp] theorem nextPlace_hostData : (nextPlace s).hostData = s.hostData := rfl
@[simp] theorem nextPlace_decimals : (nextPlace s).decimals = s.decimals := rfl
@[simp] theorem nextPlace_epoch : (nextPlace s).epoch = s.epoch := rfl

/-! ## takeError -/

@[simp] theorem takeError_ph (c : Cause) (p : Nat) : (takeError c p s).ph = .fault := rfl
@[simp] theorem takeError_slot (c : Cause) (p : Nat) : (takeError c p s).slot = 0 := rfl
@[simp] theorem takeError_pos (c : Cause) (p : Nat) : (takeError c p s).pos = s.pos := rfl
@[simp] theorem takeError_recIdx (c : Cause) (p : Nat) : (takeError c p s).recIdx = s.recIdx := rfl
@[simp] theorem takeError_recStart (c : Cause) (p : Nat) : (takeError c p s).recStart = s.recStart := rfl
@[simp] theorem takeError_marker (c : Cause) (p : Nat) : (takeError c p s).marker = s.marker := rfl
@[simp] theorem takeError_size (c : Cause) (p : Nat) : (takeError c p s).size = s.size := rfl
@[simp] theorem takeError_len (c : Cause) (p : Nat) : (takeError c p s).len = s.len := rfl
@[simp] theorem takeError_hbuf (c : Cause) (p : Nat) : (takeError c p s).hbuf = s.hbuf := rfl
@[simp] theorem takeError_w (c : Cause) (p : Nat) : (takeError c p s).w = s.w := rfl
@[simp] theorem takeError_res (c : Cause) (p : Nat) : (takeError c p s).res = s.res := rfl
@[simp] theorem takeError_err (c : Cause) (p : Nat) : (takeError c p s).err = { code := c.code, sub := c.sub, pos := p, record := s.recIdx } := rfl
@[simp] theorem takeError_term (c : Cause) (p : Nat) : (takeError c p s).term = c.terminal := rfl
@[simp] theorem takeError_ctrl (c : Cause) (p : Nat) : (takeError c p s).ctrl = s.ctrl := rfl
@[simp] theorem takeError_unread (c : Cause) (p : Nat) : (takeError c p s).unread = s.unread := rfl
@[simp] theorem takeError_eos (c : Cause) (p : Nat) : (takeError c p s).eos = s.eos := rfl
@[simp] theorem takeError_inputs (c : Cause) (p : Nat) : (takeError c p s).inputs = s.inputs := rfl
@[simp] theorem takeError_hostData (c : Cause) (p : Nat) : (takeError c p s).hostData = s.hostData := rfl
@[simp] theorem takeError_decimals (c : Cause) (p : Nat) : (takeError c p s).decimals = s.decimals := rfl
@[simp] theorem takeError_epoch (c : Cause) (p : Nat) : (takeError c p s).epoch = s.epoch := rfl

/-! ## disposeRecord -/

@[simp] theorem disposeRecord_ph : (disposeRecord s).ph = if s.single then .done else .mark := rfl
@[simp] theorem disposeRecord_slot : (disposeRecord s).slot = 0 := rfl
@[simp] theorem disposeRecord_pos : (disposeRecord s).pos = s.pos := rfl
@[simp] theorem disposeRecord_recIdx : (disposeRecord s).recIdx = s.recIdx + 1 := rfl
@[simp] theorem disposeRecord_recStart : (disposeRecord s).recStart = s.recStart := rfl
@[simp] theorem disposeRecord_marker : (disposeRecord s).marker = s.marker := rfl
@[simp] theorem disposeRecord_size : (disposeRecord s).size = s.size := rfl
@[simp] theorem disposeRecord_len : (disposeRecord s).len = s.len := rfl
@[simp] theorem disposeRecord_hbuf : (disposeRecord s).hbuf = s.hbuf := rfl
@[simp] theorem disposeRecord_w : (disposeRecord s).w = s.w := rfl
@[simp] theorem disposeRecord_res : (disposeRecord s).res = s.res := rfl
@[simp] theorem disposeRecord_err : (disposeRecord s).err = ErrorRegs.none := rfl
@[simp] theorem disposeRecord_term : (disposeRecord s).term = s.term := rfl
@[simp] theorem disposeRecord_ctrl : (disposeRecord s).ctrl = s.ctrl := rfl
@[simp] theorem disposeRecord_unread : (disposeRecord s).unread = s.unread := rfl
@[simp] theorem disposeRecord_eos : (disposeRecord s).eos = s.eos := rfl
@[simp] theorem disposeRecord_inputs : (disposeRecord s).inputs = s.inputs := rfl
@[simp] theorem disposeRecord_hostData : (disposeRecord s).hostData = s.hostData := rfl
@[simp] theorem disposeRecord_decimals : (disposeRecord s).decimals = s.decimals := rfl
@[simp] theorem disposeRecord_epoch : (disposeRecord s).epoch = s.epoch := rfl

/-! ## writeTargetHex -/

@[simp] theorem writeTargetHex_ph : (writeTargetHex s).ph = s.ph := by unfold writeTargetHex; rfl
@[simp] theorem writeTargetHex_slot : (writeTargetHex s).slot = s.slot := by unfold writeTargetHex; rfl
@[simp] theorem writeTargetHex_pos : (writeTargetHex s).pos = s.pos := by unfold writeTargetHex; rfl
@[simp] theorem writeTargetHex_recIdx : (writeTargetHex s).recIdx = s.recIdx := by unfold writeTargetHex; rfl
@[simp] theorem writeTargetHex_recStart : (writeTargetHex s).recStart = s.recStart := by unfold writeTargetHex; rfl
@[simp] theorem writeTargetHex_marker : (writeTargetHex s).marker = s.marker := by unfold writeTargetHex; rfl
@[simp] theorem writeTargetHex_size : (writeTargetHex s).size = s.size := by unfold writeTargetHex; rfl
@[simp] theorem writeTargetHex_len : (writeTargetHex s).len = s.len := by unfold writeTargetHex; rfl
@[simp] theorem writeTargetHex_hbuf : (writeTargetHex s).hbuf = s.hbuf := by unfold writeTargetHex; rfl
@[simp] theorem writeTargetHex_w : (writeTargetHex s).w = s.w := by unfold writeTargetHex; rfl
@[simp] theorem writeTargetHex_res : (writeTargetHex s).res = { s.res with targetHex := targetText Config.hexCase s.w.target } := by unfold writeTargetHex; rfl
@[simp] theorem writeTargetHex_err : (writeTargetHex s).err = s.err := by unfold writeTargetHex; rfl
@[simp] theorem writeTargetHex_term : (writeTargetHex s).term = s.term := by unfold writeTargetHex; rfl
@[simp] theorem writeTargetHex_ctrl : (writeTargetHex s).ctrl = s.ctrl := by unfold writeTargetHex; rfl
@[simp] theorem writeTargetHex_unread : (writeTargetHex s).unread = s.unread := by unfold writeTargetHex; rfl
@[simp] theorem writeTargetHex_eos : (writeTargetHex s).eos = s.eos := by unfold writeTargetHex; rfl
@[simp] theorem writeTargetHex_inputs : (writeTargetHex s).inputs = s.inputs := by unfold writeTargetHex; rfl
@[simp] theorem writeTargetHex_hostData : (writeTargetHex s).hostData = s.hostData := by unfold writeTargetHex; rfl
@[simp] theorem writeTargetHex_decimals : (writeTargetHex s).decimals = s.decimals := by unfold writeTargetHex; rfl
@[simp] theorem writeTargetHex_epoch : (writeTargetHex s).epoch = s.epoch := by unfold writeTargetHex; rfl

/-! ## commitResult -/

@[simp] theorem commitResult_ph : (commitResult s).ph = .emit := rfl
@[simp] theorem commitResult_slot : (commitResult s).slot = 0 := rfl
@[simp] theorem commitResult_pos : (commitResult s).pos = s.pos := rfl
@[simp] theorem commitResult_recIdx : (commitResult s).recIdx = s.recIdx := rfl
@[simp] theorem commitResult_recStart : (commitResult s).recStart = s.recStart := rfl
@[simp] theorem commitResult_marker : (commitResult s).marker = s.marker := rfl
@[simp] theorem commitResult_size : (commitResult s).size = s.size := rfl
@[simp] theorem commitResult_len : (commitResult s).len = s.len := rfl
@[simp] theorem commitResult_hbuf : (commitResult s).hbuf = s.hbuf := rfl
@[simp] theorem commitResult_w : (commitResult s).w = s.w := rfl
@[simp] theorem commitResult_res : (commitResult s).res = resultOf s.w s.recStart := rfl
@[simp] theorem commitResult_err : (commitResult s).err = s.err := rfl
@[simp] theorem commitResult_term : (commitResult s).term = s.term := rfl
@[simp] theorem commitResult_ctrl : (commitResult s).ctrl = s.ctrl := rfl
@[simp] theorem commitResult_unread : (commitResult s).unread = s.unread := rfl
@[simp] theorem commitResult_eos : (commitResult s).eos = s.eos := rfl
@[simp] theorem commitResult_inputs : (commitResult s).inputs = s.inputs := rfl
@[simp] theorem commitResult_hostData : (commitResult s).hostData = s.hostData := rfl
@[simp] theorem commitResult_decimals : (commitResult s).decimals = s.decimals := rfl
@[simp] theorem commitResult_epoch : (commitResult s).epoch = s.epoch := rfl

/-! ## restoreReset -/

@[simp] theorem restoreReset_ph : (restoreReset s).ph = .idle := rfl
@[simp] theorem restoreReset_slot : (restoreReset s).slot = 0 := rfl
@[simp] theorem restoreReset_pos : (restoreReset s).pos = 0 := rfl
@[simp] theorem restoreReset_recIdx : (restoreReset s).recIdx = 0 := rfl
@[simp] theorem restoreReset_recStart : (restoreReset s).recStart = 0 := rfl
@[simp] theorem restoreReset_marker : (restoreReset s).marker = Config.unspecBytes 4 10 s.epoch := rfl
@[simp] theorem restoreReset_size : (restoreReset s).size = Config.unspecBits 32 11 s.epoch := rfl
@[simp] theorem restoreReset_len : (restoreReset s).len = Config.unspecBits 32 12 s.epoch := rfl
@[simp] theorem restoreReset_hbuf : (restoreReset s).hbuf = Config.unspecBytes 80 40 s.epoch := rfl
@[simp] theorem restoreReset_w : (restoreReset s).w = unspecLatches s.epoch := rfl
@[simp] theorem restoreReset_res : (restoreReset s).res = unspecResults s.epoch := rfl
@[simp] theorem restoreReset_err : (restoreReset s).err = ErrorRegs.none := rfl
@[simp] theorem restoreReset_term : (restoreReset s).term = false := rfl
@[simp] theorem restoreReset_ctrl : (restoreReset s).ctrl = s.ctrl := rfl
@[simp] theorem restoreReset_unread : (restoreReset s).unread = s.unread := rfl
@[simp] theorem restoreReset_eos : (restoreReset s).eos = s.eos := rfl
@[simp] theorem restoreReset_inputs : (restoreReset s).inputs = s.inputs := rfl
@[simp] theorem restoreReset_hostData : (restoreReset s).hostData = s.hostData := rfl
@[simp] theorem restoreReset_decimals : (restoreReset s).decimals = s.decimals := rfl
@[simp] theorem restoreReset_epoch : (restoreReset s).epoch = s.epoch + 1 := rfl

/-! ## pushCommand -/

@[simp] theorem pushCommand_ph (v : Nat) : (pushCommand v s).ph = s.ph := rfl
@[simp] theorem pushCommand_slot (v : Nat) : (pushCommand v s).slot = s.slot := rfl
@[simp] theorem pushCommand_pos (v : Nat) : (pushCommand v s).pos = s.pos := rfl
@[simp] theorem pushCommand_recIdx (v : Nat) : (pushCommand v s).recIdx = s.recIdx := rfl
@[simp] theorem pushCommand_recStart (v : Nat) : (pushCommand v s).recStart = s.recStart := rfl
@[simp] theorem pushCommand_marker (v : Nat) : (pushCommand v s).marker = s.marker := rfl
@[simp] theorem pushCommand_size (v : Nat) : (pushCommand v s).size = s.size := rfl
@[simp] theorem pushCommand_len (v : Nat) : (pushCommand v s).len = s.len := rfl
@[simp] theorem pushCommand_hbuf (v : Nat) : (pushCommand v s).hbuf = s.hbuf := rfl
@[simp] theorem pushCommand_w (v : Nat) : (pushCommand v s).w = s.w := rfl
@[simp] theorem pushCommand_res (v : Nat) : (pushCommand v s).res = s.res := rfl
@[simp] theorem pushCommand_err (v : Nat) : (pushCommand v s).err = s.err := rfl
@[simp] theorem pushCommand_term (v : Nat) : (pushCommand v s).term = s.term := rfl
@[simp] theorem pushCommand_ctrl (v : Nat) : (pushCommand v s).ctrl = s.ctrl := rfl
@[simp] theorem pushCommand_unread (v : Nat) : (pushCommand v s).unread = s.unread := rfl
@[simp] theorem pushCommand_eos (v : Nat) : (pushCommand v s).eos = s.eos := rfl
@[simp] theorem pushCommand_inputs (v : Nat) : (pushCommand v s).inputs = .hostWrite 1 (BitVec.ofNat 32 v) :: s.inputs := rfl
@[simp] theorem pushCommand_hostData (v : Nat) : (pushCommand v s).hostData = s.hostData := rfl
@[simp] theorem pushCommand_decimals (v : Nat) : (pushCommand v s).decimals = s.decimals := rfl
@[simp] theorem pushCommand_epoch (v : Nat) : (pushCommand v s).epoch = s.epoch := rfl

/-! ## applyRst, writeReg -/

@[simp] theorem applyRst_ctrl : (applyRst s).ctrl = 0 := rfl
@[simp] theorem applyRst_ph : (applyRst s).ph = .idle := rfl
@[simp] theorem applyRst_pos : (applyRst s).pos = 0 := rfl
@[simp] theorem applyRst_unread : (applyRst s).unread = s.unread := rfl
@[simp] theorem applyRst_eos : (applyRst s).eos = s.eos := rfl
@[simp] theorem applyRst_inputs : (applyRst s).inputs = s.inputs := rfl

/-- A HOST write beside `CMD` changes `CTRL` or nothing (R34, R237). -/
theorem writeReg_eq (r : BitVec 6) (v : Word) :
    writeReg r v s = s ∨ (r = 0 ∧ s.ph = .idle ∧ writeReg r v s = { s with ctrl := v &&& 1 }) := by
  unfold writeReg
  split
  · exact .inr ⟨by simp_all, by simp_all, rfl⟩
  · exact .inl rfl

end Sys2Proof.Machine
end

