-- ==== Sys2Proof/Laws/Ops.lean ====
section
/-! SUPPORT. What each shared operation can do, said once: `MemRead`, the memory view, what a step fetches. -/

namespace Sys2Proof.Machine

/-! ## MemRead -/

theorem memRead_full {n : Nat} {s : State} (h : n ≤ s.unread.length) :
    memRead n s = (.full (s.unread.take n), { s with unread := s.unread.drop n, pos := s.pos + n }) := by
  simp [memRead, h]

theorem memRead_short {n : Nat} {s : State} (h : s.unread.length < n) (e : s.eos = true) :
    memRead n s = (.short s.unread.length, { s with unread := [], pos := s.pos + s.unread.length }) := by
  simp [memRead, Nat.not_le.mpr h, e]

theorem memRead_waiting {n : Nat} {s : State} (h : s.unread.length < n) (e : s.eos = false) :
    memRead n s = (.waiting, s) := by
  simp [memRead, Nat.not_le.mpr h, e]

/-- Everything `MemRead` can do (R62, R63, R78). -/
theorem memRead_cases (n : Nat) (s : State) :
    (n ≤ s.unread.length ∧
      memRead n s = (.full (s.unread.take n), { s with unread := s.unread.drop n, pos := s.pos + n })) ∨
    (s.unread.length < n ∧ s.eos = true ∧
      memRead n s = (.short s.unread.length, { s with unread := [], pos := s.pos + s.unread.length })) ∨
    (s.unread.length < n ∧ s.eos = false ∧ memRead n s = (.waiting, s)) := by
  rcases Nat.lt_or_ge s.unread.length n with h | h
  · rcases Bool.eq_false_or_eq_true s.eos with e | e
    · exact .inr (.inl ⟨h, e, memRead_short h e⟩)
    · exact .inr (.inr ⟨h, e, memRead_waiting h e⟩)
  · exact .inl ⟨h, memRead_full h⟩

/-! ## The memory view -/

theorem memory_eq (s : State) : s.memory = (s.unread.zipIdx s.pos).map fun (b, a) => (a, b) := rfl

/-- The view of any bytes from any address is in canonical form. -/
theorem memory_wf_from (l : List Byte) (a : Nat) : Memory.wf ((l.zipIdx a).map fun (b, k) => (k, b)) = true := by
  induction l generalizing a with
  | nil => rfl
  | cons x xs ih =>
    cases xs with
    | nil => rfl
    | cons y ys => simpa [Memory.wf, List.zipIdx_cons] using ih (a + 1)

/-- The memory of every state is in canonical form, so every operation keeps the form. -/
@[simp] theorem memory_wf (s : State) : Memory.wf s.memory = true := memory_wf_from s.unread s.pos

theorem memRead_keeps_memory_wf (n : Nat) (s : State) : Memory.wf (memRead n s).2.memory = true := memory_wf _

theorem reset_memory_wf : Memory.wf State.reset.memory = true ∧ State.reset.memory = [] := ⟨rfl, rfl⟩

/-- A byte of STREAM depends on `POS` and the unread bytes only. -/
theorem streamByte_congr {s t : State} (hp : t.pos = s.pos) (hu : t.unread = s.unread) (a : Nat) :
    t.streamByte a = s.streamByte a := by
  simp [State.streamByte, hp, hu]

/-- Consuming `k` bytes leaves every byte at or beyond the new position readable as before (R70). -/
theorem streamByte_after {s t : State} {k : Nat} (hp : t.pos = s.pos + k) (hu : t.unread = s.unread.drop k) {a : Nat}
    (ha : t.pos ≤ a) : t.streamByte a = s.streamByte a := by
  have h1 : s.pos ≤ a := by omega
  have h2 : k + (a - t.pos) = a - s.pos := by omega
  simp [State.streamByte, ha, h1, hu, List.getElem?_drop, h2]

/-- A byte below `POS` cannot be read again (R70). -/
theorem streamByte_before (s : State) {a : Nat} (ha : a < s.pos) : s.streamByte a = none := by
  simp [State.streamByte, Nat.not_le.mpr ha]

/-! ## STREAM and the environment -/

/-- Everything a binding can do (R303, R74). -/
theorem bindStream_cases (bytes : List Byte) (ended : Bool) (s : State) :
    ((s.running && !s.unbound) = true ∧ bindStream bytes ended s = .refused .streamInUse) ∨
    ((s.running && !s.unbound) = false ∧ bindStream bytes ended s = .next { s with unread := bytes, eos := ended }) := by
  rcases hr : (s.running && !s.unbound) with _ | _
  · exact .inr ⟨rfl, by simp only [bindStream, hr]; rfl⟩
  · exact .inl ⟨rfl, by simp only [bindStream, hr]; rfl⟩

/-- Everything an offered byte can do (R78, R61). -/
theorem deliverByte_cases (b : Byte) (s : State) :
    (s.eos = true ∧ deliverByte b s = .refused .byteAfterEnd) ∨
    (s.eos = false ∧ deliverByte b s = .next { s with unread := s.unread ++ [b] }) := by
  rcases he : s.eos with _ | _
  · exact .inr ⟨rfl, by simp only [deliverByte, he]; rfl⟩
  · exact .inl ⟨rfl, by simp only [deliverByte, he]; rfl⟩

/-- A binding is possible before and after a run, and to a run that has no stream yet (R303). -/
theorem running_unbound_eq_false (s : State) :
    (s.running && !s.unbound) = false ↔
      (s.ph = .idle ∨ s.ph = .done ∨ (s.ph = .fault ∧ s.term = true)) ∨
        (s.unread = [] ∧ s.eos = false ∧ s.pos = 0) := by
  simp only [State.running, State.unbound, Bool.and_eq_false_iff, Bool.not_eq_false', Bool.or_eq_true, beq_iff_eq,
    Bool.and_eq_true, List.isEmpty_iff, Bool.not_eq_true', and_assoc, or_assoc]

/-! ## What a step performs -/

theorem step_eq_of_fetch_run {s t : State} {i : Instr} (h : fetch s = .run i t) : step s = exec i t := by
  simp [step, h]

theorem step_eq_of_fetch_settled {s : State} {o : Host.Outcome State Fault Refusal} (h : fetch s = .settled o) :
    step s = o := by
  simp [step, h]

theorem coreTurn_run {s : State} {i : Instr} (h : decodePhase s.ph.code s.slot = .ok i) : coreTurn s = .run i s := by
  simp [coreTurn, decode, h]

/-- In a wait state CORE has no operation (R240). -/
theorem coreTurn_wait {s : State} (h : s.ph.isRun = false) : coreTurn s = .settled (.next s) := by
  cases hp : s.ph <;> simp_all [coreTurn, decode, decodePhase, Phase.code, Phase.isRun]

/-- CORE's turn: nothing, or the operation its phase selects, in the phase and at the place R104 gives it. -/
theorem coreTurn_cases (s : State) :
    coreTurn s = .settled (.next s) ∨
    (s.ph = .mark ∧ s.slot = 0 ∧ coreTurn s = .run .frMark s) ∨
    (s.ph = .size ∧ s.slot = 0 ∧ coreTurn s = .run .frSize s) ∨
    (s.ph = .data ∧ s.slot = 0 ∧ coreTurn s = .run .frData s) ∨
    (s.ph = .hdec ∧ s.slot = 0 ∧ coreTurn s = .run .hdChk s) ∨
    (s.ph = .hdec ∧ s.slot = 1 ∧ coreTurn s = .run .hdVer s) ∨
    (s.ph = .hdec ∧ s.slot = 2 ∧ coreTurn s = .run .hdPrev s) ∨
    (s.ph = .hdec ∧ s.slot = 3 ∧ coreTurn s = .run .hdMrkl s) ∨
    (s.ph = .hdec ∧ s.slot = 4 ∧ coreTurn s = .run .hdTime s) ∨
    (s.ph = .hdec ∧ s.slot = 5 ∧ coreTurn s = .run .hdBits s) ∨
    (s.ph = .hdec ∧ s.slot = 6 ∧ coreTurn s = .run .hdNonce s) ∨
    (s.ph = .hdec ∧ s.slot = 7 ∧ coreTurn s = .run .hdPay s) ∨
    (s.ph = .tgt ∧ s.slot = 0 ∧ coreTurn s = .run .dfUnpk s) ∨
    (s.ph = .tgt ∧ s.slot = 1 ∧ coreTurn s = .run .dfTgt s) ∨
    (s.ph = .pdif ∧ s.slot = 0 ∧ coreTurn s = .run .dfPdif s) ∨
    (s.ph = .bdif ∧ s.slot = 0 ∧ coreTurn s = .run .dfBdif s) := by
  unfold coreTurn decode
  cases hp : s.ph <;> simp only [Phase.code, reduceCtorEq, false_and, true_and, false_or, or_false] <;>
    rcases hs : s.slot with _ | _ | _ | _ | _ | _ | _ | _ | k <;> simp [decodePhase]

/-- The state a step works on: `s` without the input it takes. -/
abbrev State.popped (s : State) : State := { s with inputs := s.inputs.tail }

theorem popped_of_nil {s : State} (h : s.inputs = []) : s.popped = s := by
  cases s
  simp_all [State.popped]

/-- Everything a step that answers a next state can have done (R10, R11, R237, R240, R300, R303). -/
theorem step_next_cases {s t : State} (h : step s = .next t) :
    t = s.popped ∨
    (∃ i, coreTurn s.popped = .run i s.popped ∧ exec i s.popped = .next t) ∨
    (∃ word i rest, s.inputs = .hostWrite 1 word :: rest ∧ decodeCommand word = .ok i ∧ exec i s.popped = .next t) ∨
    (∃ v rest, s.inputs = .hostWrite 0 v :: rest ∧ s.ph = .idle ∧ t = { s.popped with ctrl := v &&& 1 }) ∨
    (∃ reg rest v, s.inputs = .hostRead reg :: rest ∧ readReg s.popped reg = .ok v ∧
      t = { s.popped with hostData := some v }) ∨
    (∃ rest, s.inputs = .hostRender :: rest ∧ exec .dfDec s.popped = .next t) ∨
    (∃ rest, s.inputs = .rst :: rest ∧ t = applyRst s.popped) ∨
    (∃ b e rest, s.inputs = .bind b e :: rest ∧ (s.running && !s.unbound) = false ∧
      t = { s.popped with unread := b, eos := e }) ∨
    (∃ b rest, s.inputs = .deliver b :: rest ∧ s.eos = false ∧ t = { s.popped with unread := s.unread ++ [b] }) ∨
    (∃ rest, s.inputs = .endOfStream :: rest ∧ t = { s.popped with eos := true }) := by
  have core : ∀ u : State, coreTurn u = .settled (.next u) ∨ ∃ i, coreTurn u = .run i u := by
    intro u
    unfold coreTurn
    split
    · exact .inr ⟨_, rfl⟩
    · exact .inl rfl
  unfold step fetch at h
  rcases hi : s.inputs with _ | ⟨x, rest⟩
  · rw [hi] at h
    rcases core s with hc | ⟨i, hc⟩
    · simp only [hc, Host.Outcome.next.injEq] at h
      exact .inl (by rw [popped_of_nil hi, h])
    · simp only [hc] at h
      exact .inr (.inl ⟨i, by rw [popped_of_nil hi]; exact ⟨hc, h⟩⟩)
  · have hp : s.popped = { s with inputs := rest } := by simp [State.popped, hi]
    rw [hp]
    rw [hi] at h
    cases x with
    | core =>
      simp only [takeInput] at h
      rcases core { s with inputs := rest } with hc | ⟨i, hc⟩
      · simp only [hc, Host.Outcome.next.injEq] at h
        exact .inl h.symm
      · simp only [hc] at h
        exact .inr (.inl ⟨i, hc, h⟩)
    | hostWrite reg v =>
      simp only [takeInput] at h
      by_cases hr : reg = 1
      · subst hr
        simp only [if_true, commandWrite, decode] at h
        rcases hd : decodeCommand v with e | i
        · simp only [hd, Host.Outcome.next.injEq] at h
          exact .inl h.symm
        · simp only [hd] at h
          exact .inr (.inr (.inl ⟨v, i, rest, rfl, hd, h⟩))
      · simp only [hr, if_false, Host.Outcome.next.injEq] at h
        rcases writeReg_eq { s with inputs := rest } reg v with hw | ⟨h0, hph, hw⟩
        · exact .inl (by rw [← h, hw])
        · exact .inr (.inr (.inr (.inl ⟨v, rest, by rw [h0], hph, by rw [← h, hw]⟩)))
    | hostRead reg =>
      simp only [takeInput] at h
      rcases hd : readReg { s with inputs := rest } reg with e | v
      · simp [hd] at h
      · simp only [hd, Host.Outcome.next.injEq] at h
        exact .inr (.inr (.inr (.inr (.inl ⟨reg, rest, v, rfl, hd, h.symm⟩))))
    | hostRender =>
      simp only [takeInput] at h
      exact .inr (.inr (.inr (.inr (.inr (.inl ⟨rest, rfl, h⟩)))))
    | rst =>
      simp only [takeInput, Host.Outcome.next.injEq] at h
      exact .inr (.inr (.inr (.inr (.inr (.inr (.inl ⟨rest, rfl, h.symm⟩))))))
    | bind b e =>
      simp only [takeInput, bindStream] at h
      split at h
      · cases h
      · rename_i hn
        simp only [Host.Outcome.next.injEq] at h
        exact .inr (.inr (.inr (.inr (.inr (.inr (.inr (.inl ⟨b, e, rest, rfl, Bool.eq_false_iff.mpr hn, h.symm⟩)))))))
    | deliver b =>
      simp only [takeInput, deliverByte] at h
      split at h
      · cases h
      · rename_i hn
        simp only [Host.Outcome.next.injEq] at h
        exact .inr (.inr (.inr (.inr (.inr (.inr (.inr (.inr (.inl ⟨b, rest, rfl, by simpa using hn, h.symm⟩))))))))
    | endOfStream =>
      simp only [takeInput, Host.Outcome.next.injEq] at h
      exact .inr (.inr (.inr (.inr (.inr (.inr (.inr (.inr (.inr ⟨rest, rfl, h.symm⟩))))))))

end Sys2Proof.Machine
end

