-- ==== Sys2Proof/Laws/Exec.lean ====
section
/-! SUPPORT. For each operation whose meaning has cases, everything it can answer, said once. The other operations'
meanings are one equation. -/

namespace Sys2Proof.Machine

variable {s t : State}

/-- FR.MARK (R131): a marker, the normal end, MARK_SHORT, or waiting. -/
theorem execFrMark_cases (h : exec .frMark s = .next t) :
    (4 ≤ s.unread.length ∧ t = setPhase .size { s with
      unread := s.unread.drop 4, pos := s.pos + 4, recStart := s.pos, marker := toBytes 4 (s.unread.take 4) }) ∨
    (s.unread = [] ∧ s.eos = true ∧ s.single = false ∧ t = setPhase .done s) ∨
    (s.unread.length < 4 ∧ s.eos = true ∧ (s.unread ≠ [] ∨ s.single = true) ∧
      t = takeError .markShort s.pos { s with unread := [], pos := s.pos + s.unread.length }) ∨
    (s.unread.length < 4 ∧ s.eos = false ∧ t = s) := by
  simp only [exec, execFrMark, Config.markLen] at h
  rcases memRead_cases 4 s with ⟨h1, e⟩ | ⟨h1, h2, e⟩ | ⟨h1, h2, e⟩ <;> simp only [e] at h
  · cases h
    exact .inl ⟨h1, rfl⟩
  · split at h
    · rename_i hk
      cases h
      have hu : s.unread = [] := List.eq_nil_of_length_eq_zero hk.1
      refine .inr (.inl ⟨hu, h2, hk.2, ?_⟩)
      cases s
      simp_all
    · rename_i hk
      cases h
      refine .inr (.inr (.inl ⟨h1, h2, ?_, rfl⟩))
      by_cases hu : s.unread = []
      · exact .inr (by simpa [hu] using hk)
      · exact .inl hu
  · cases h
    exact .inr (.inr (.inr ⟨h1, h2, rfl⟩))

/-- FR.SIZE (R132): a size, NEG_SIZE, SIZE_SHORT, or waiting. -/
theorem execFrSize_cases (h : exec .frSize s = .next t) :
    (∃ z : Word, 4 ≤ s.unread.length ∧ z.toInt = leSint32 (s.unread.take 4) ∧
      (0 ≤ z.toInt ∧ t = setPhase .data { s with unread := s.unread.drop 4, pos := s.pos + 4, size := z } ∨
       z.toInt < 0 ∧
        t = takeError .negSize s.pos { s with unread := s.unread.drop 4, pos := s.pos + 4, size := z })) ∨
    (s.unread.length < 4 ∧ s.eos = true ∧
      t = takeError .sizeShort s.pos { s with unread := [], pos := s.pos + s.unread.length }) ∨
    (s.unread.length < 4 ∧ s.eos = false ∧ t = s) := by
  simp only [exec, execFrSize, Config.sizeLen] at h
  rcases memRead_cases 4 s with ⟨h1, e⟩ | ⟨h1, h2, e⟩ | ⟨h1, h2, e⟩ <;> simp only [e] at h
  · have hz := leSint32_toInt (s.unread.take 4) (by simpa using h1)
    refine .inl ⟨_, h1, hz, ?_⟩
    rw [hz]
    split at h <;> cases h
    · exact .inr ⟨‹_›, rfl⟩
    · exact .inl ⟨by omega, rfl⟩
  · cases h
    exact .inr (.inl ⟨h1, h2, rfl⟩)
  · cases h
    exact .inr (.inr ⟨h1, h2, rfl⟩)

/-- FR.DATA (R133): a record, DATA_SHORT, or waiting; a next state exists for a `SIZE` that is not negative only. -/
theorem execFrData_cases (h : exec .frData s = .next t) :
    0 ≤ s.sizeInt ∧
    ((s.sizeInt.toNat ≤ s.unread.length ∧ t = setPhase .hdec { s with
        unread := s.unread.drop s.sizeInt.toNat, pos := s.pos + s.sizeInt.toNat, len := s.size,
        hbuf := keepHeader (s.unread.take s.sizeInt.toNat) s.hbuf }) ∨
     (s.unread.length < s.sizeInt.toNat ∧ s.eos = true ∧
        t = takeError .dataShort s.pos { s with unread := [], pos := s.pos + s.unread.length }) ∨
     (s.unread.length < s.sizeInt.toNat ∧ s.eos = false ∧ t = s)) := by
  simp only [exec, execFrData] at h
  split at h
  · cases h
  · refine ⟨by omega, ?_⟩
    rcases memRead_cases s.sizeInt.toNat s with ⟨h1, e⟩ | ⟨h1, h2, e⟩ | ⟨h1, h2, e⟩ <;> simp only [e] at h <;> cases h
    · exact .inl ⟨h1, rfl⟩
    · exact .inr (.inl ⟨h1, h2, rfl⟩)
    · exact .inr (.inr ⟨h1, h2, rfl⟩)

/-- HD.CHK (R160). -/
theorem execHdChk_cases (h : exec .hdChk s = .next t) :
    (80 ≤ s.len.toNat ∧ t = nextPlace s) ∨
    (s.len.toNat < 80 ∧ t = takeError .truncated (s.recStart + 8) s) := by
  simp only [exec, execHdChk, Config.hdrLen] at h
  split at h <;> cases h
  · exact .inr ⟨‹_›, rfl⟩
  · exact .inl ⟨by omega, rfl⟩

/-- DF.TGT (R191). -/
theorem execDfTgt_cases (h : exec .dfTgt s = .next t) :
    (3 ≤ s.w.exp.toNat ∧ s.w.exp.toNat ≤ 32 ∧ ∃ v : Word256, v.toNat = s.w.mant.toNat * 256 ^ (s.w.exp.toNat - 3) ∧
      t = setPhase .pdif { s with w := { s.w with target := v } }) ∨
    (s.w.exp.toNat < 3 ∧ t = takeError .expLow (s.recStart + 80) s) ∨
    (32 < s.w.exp.toNat ∧ t = takeError .expHigh (s.recStart + 80) s) := by
  simp only [exec, execDfTgt, Config.expMin, Config.expMax] at h
  split at h
  · cases h
    exact .inr (.inl ⟨‹_›, rfl⟩)
  · split at h
    · cases h
      exact .inr (.inr ⟨‹_›, rfl⟩)
    · cases h
      refine .inl ⟨by omega, by omega, _, ?_, rfl⟩
      exact toNat_ofNat_256 _ (targetOf_lt _ _ (by omega) s.w.mant.isLt)

/-- A division of a 256-bit numerator by a non-zero target, with quotient and remainder in 256-bit registers (R205, R208). -/
theorem divmod_registers (a b : Word256) (h : b.toNat ≠ 0) :
    (BitVec.ofNat 256 (divmod a.toNat b.toNat).1).toNat * b.toNat + (BitVec.ofNat 256 (divmod a.toNat b.toNat).2).toNat
      = a.toNat ∧
    (BitVec.ofNat 256 (divmod a.toNat b.toNat).2).toNat < b.toNat := by
  have hd := divmod_spec a.toNat b.toNat (by omega)
  have hq : (divmod a.toNat b.toNat).1 < 2 ^ 256 := lt_of_le_of_lt (Nat.div_le_self _ _) a.isLt
  have hr : (divmod a.toNat b.toNat).2 < 2 ^ 256 := lt_of_le_of_lt (Nat.mod_le _ _) a.isLt
  rw [toNat_ofNat_256 _ hq, toNat_ofNat_256 _ hr]
  exact hd

/-- DF.PDIF (R196). -/
theorem execDfPdif_cases (h : exec .dfPdif s = .next t) :
    (s.w.target.toNat ≠ 0 ∧ ∃ q r : Word256, q.toNat * s.w.target.toNat + r.toNat = Config.genesisTarget.toNat ∧
      r.toNat < s.w.target.toNat ∧ t = setPhase .bdif { s with w := { s.w with pq := q, pr := r } }) ∨
    (s.w.target.toNat = 0 ∧ t = takeError .divPdif (s.recStart + 80) s) := by
  simp only [exec, execDfPdif] at h
  split at h <;> cases h
  · exact .inr ⟨‹_›, rfl⟩
  · rename_i hz
    have hd := divmod_registers Config.genesisTarget s.w.target hz
    exact .inl ⟨hz, _, _, hd.1, hd.2, rfl⟩

/-- DF.BDIF (R197), with OUT.EMIT (R230). -/
theorem execDfBdif_cases (h : exec .dfBdif s = .next t) :
    (s.w.target.toNat ≠ 0 ∧ ∃ q r : Word256,
      q.toNat * s.w.target.toNat + r.toNat = Config.genesisTargetTruncated.toNat ∧
      r.toNat < s.w.target.toNat ∧ t = commitResult { s with w := { s.w with bq := q, br := r } }) ∨
    (s.w.target.toNat = 0 ∧ t = takeError .divBdif (s.recStart + 80) s) := by
  simp only [exec, execDfBdif] at h
  split at h <;> cases h
  · exact .inr ⟨‹_›, rfl⟩
  · rename_i hz
    have hd := divmod_registers Config.genesisTargetTruncated s.w.target hz
    exact .inl ⟨hz, _, _, hd.1, hd.2, rfl⟩

/-- DF.DEC (R201). -/
theorem execDfDec_cases (h : exec .dfDec s = .next t) :
    s.ph = .emit ∧ t = { s with decimals := some (renderRatios s.res) } := by
  simp only [exec, execDfDec] at h
  split at h
  · rename_i hr
    cases h
    exact ⟨by simpa [State.rdy] using hr, rfl⟩
  · cases h

/-- CMD.START (R233). -/
theorem execCmdStart_cases (h : exec .cmdStart s = .next t) :
    (s.ph = .idle ∧ t = setPhase .mark { s with pos := 0, recIdx := 0, recStart := 0 }) ∨ (s.ph ≠ .idle ∧ t = s) := by
  simp only [exec, execCmdStart] at h
  split at h <;> cases h
  · exact .inl ⟨‹_›, rfl⟩
  · exact .inr ⟨‹_›, rfl⟩

/-- CMD.NEXT (R234). -/
theorem execCmdNext_cases (h : exec .cmdNext s = .next t) :
    (s.acceptsNext = true ∧ t = disposeRecord s) ∨ (s.acceptsNext = false ∧ t = s) := by
  simp only [exec, execCmdNext] at h
  split at h <;> cases h
  · exact .inl ⟨‹_›, rfl⟩
  · rename_i hn
    exact .inr ⟨by simpa using hn, rfl⟩

/-- CMD.ABORT (R235). -/
theorem execCmdAbort_cases (h : exec .cmdAbort s = .next t) :
    (s.abortTakesEffect = true ∧ t = restoreReset s) ∨ (s.abortTakesEffect = false ∧ t = s) := by
  simp only [exec, execCmdAbort] at h
  split at h <;> cases h
  · exact .inl ⟨‹_›, rfl⟩
  · rename_i hn
    exact .inr ⟨by simpa using hn, rfl⟩

end Sys2Proof.Machine
end

