-- ==== Sys2Proof/Laws/PerInstr.lean ====
section
/-! SUPPORT. What holds of every operation as syntax, one lemma per operation. -/

namespace Sys2Proof.Laws.SelectionRoundTrip

/-- An operation is well formed, its selector is well formed, and decoding the selector gives the operation back
(R104, R106). -/
def Statement (i : Instr) : Prop :=
  i.wellFormed = true ∧ (encode i).wellFormed = true ∧ decode (encode i) = .ok i

theorem frMark : Statement .frMark := ⟨rfl, rfl, rfl⟩
theorem frSize : Statement .frSize := ⟨rfl, rfl, rfl⟩
theorem frData : Statement .frData := ⟨rfl, rfl, rfl⟩
theorem frNext : Statement .frNext := ⟨rfl, rfl, rfl⟩
theorem hdChk : Statement .hdChk := ⟨rfl, rfl, rfl⟩
theorem hdVer : Statement .hdVer := ⟨rfl, rfl, rfl⟩
theorem hdPrev : Statement .hdPrev := ⟨rfl, rfl, rfl⟩
theorem hdMrkl : Statement .hdMrkl := ⟨rfl, rfl, rfl⟩
theorem hdTime : Statement .hdTime := ⟨rfl, rfl, rfl⟩
theorem hdBits : Statement .hdBits := ⟨rfl, rfl, rfl⟩
theorem hdNonce : Statement .hdNonce := ⟨rfl, rfl, rfl⟩
theorem hdPay : Statement .hdPay := ⟨rfl, rfl, rfl⟩
theorem dfUnpk : Statement .dfUnpk := ⟨rfl, rfl, rfl⟩
theorem dfTgt : Statement .dfTgt := ⟨rfl, rfl, rfl⟩
theorem dfPdif : Statement .dfPdif := ⟨rfl, rfl, rfl⟩
theorem dfBdif : Statement .dfBdif := ⟨rfl, rfl, rfl⟩
theorem dfHex : Statement .dfHex := ⟨rfl, rfl, rfl⟩
theorem dfDec : Statement .dfDec := ⟨rfl, rfl, rfl⟩
theorem outEmit : Statement .outEmit := ⟨rfl, rfl, rfl⟩
theorem cmdStart : Statement .cmdStart := ⟨rfl, rfl, rfl⟩
theorem cmdNext : Statement .cmdNext := ⟨rfl, rfl, rfl⟩
theorem cmdAbort : Statement .cmdAbort := ⟨rfl, rfl, rfl⟩

end Sys2Proof.Laws.SelectionRoundTrip
end

