-- ==== Sys2Proof/Tests/Slice0.lean ====
section
/-! SUPPORT. Small tests: ill-formed terms, words written out from the spec, one step each on the values of
spec/95_test_vectors.md, and for each statement with hypotheses a state that meets them. -/

namespace Sys2Proof.Tests

open Sys2Proof.Machine

/-! ## Helpers -/

/-- The reset state in another phase, at a place of its group. -/
def inPhase (p : Phase) (slot : Nat := 0) : State := { State.reset with ph := p, slot := slot }

/-- A phase that reads, with bytes offered and the stream ended behind them. -/
def reading (p : Phase) (b : List Byte) : State := { inPhase p with unread := b, eos := true }

/-- A state with one input to take. -/
def given (s : State) (i : Input) : State := { s with inputs := [i] }

/-- What a next state shows. -/
def seen {α : Type} (o : Host.Outcome State Fault Refusal) (f : State → α) : Option α :=
  match o with
  | .next t => some (f t)
  | .fault _ => none
  | .refused _ => none

/-- The marker M of the vectors. -/
def markerM : List Byte := [0xf9, 0xbe, 0xb4, 0xd9]

/-- The header of vector H2: byte `i` is `i`, but byte 75 is 0x1b. -/
def headerH2 : Bytes 80 := Vector.ofFn fun i => if i.val = 75 then 0x1b else BitVec.ofNat 8 i.val

/-- HDEC on H2, with `SIZE` = `LEN` = 81. -/
def decodingH2 (slot : Nat) : State :=
  { inPhase .hdec slot with hbuf := headerH2, len := 81, size := 81, pos := 89 }

/-- The latches of H2, from vector H2 and 42_difficulty.md. -/
def latchesH2 : Latches :=
  { State.reset.w with
    version := 0x03020100
    prevHash := (decodeHeader headerH2).prevHash
    merkleRoot := (decodeHeader headerH2).merkleRoot
    timestamp := 0x47464544
    bits := #v[0x48, 0x49, 0x4a, 0x1b]
    nonce := 0x4f4e4d4c
    payloadLen := 1
    exp := 27
    mant := 0x4a4948
    target := 0x00000000004a4948000000000000000000000000000000000000000000000000
    pq := 882
    pr := 0xf85efffffffffffffffffffffffffffffffffffffffffffffffff
    bq := 882
    br := 0xe85f0000000000000000000000000000000000000000000000000 }

/-- H2 held as a result. -/
def heldH2 : State := { decodingH2 0 with ph := .emit, w := latchesH2, res := resultOf latchesH2 0 }

/-- A state with a compact target's exponent and mantissa. -/
def unpacked (e : BitVec 8) (m : BitVec 24) : State :=
  { inPhase .tgt 1 with w := { State.reset.w with exp := e, mant := m } }

/-- A compact target about to be unpacked, with an exponent. -/
def packed (e : Byte) : State := { inPhase .tgt with w := { State.reset.w with bits := #v[1, 0, 0, e] } }

/-- Vector F4: half a size field at offset 4. -/
def shortSize : State := { reading .size [0x50, 0x00] with pos := 4 }

/-- Vector F5: no data where 80 bytes are announced. -/
def shortData : State := { reading .data [] with pos := 8, size := 80 }

/-- A state with a target. -/
def withTarget (p : Phase) (t : Word256) : State := { inPhase p with w := { State.reset.w with target := t } }

/-- A terminal and a record-scoped error held. -/
def faultHeld (terminal : Bool) : State :=
  { inPhase .fault with term := terminal, err := ⟨if terminal then 1 else 2, 0, 8, 0⟩ }

/-! ## WellFormed refuses -/

theorem test_wf_slot : (Selector.sequencer 4 8).wellFormed = false ∧ (Selector.sequencer 5 2).wellFormed = false ∧
    (Selector.sequencer 8 0).wellFormed = false ∧ (Selector.sequencer 11 0).wellFormed = false := by decide

theorem test_wf_command : (Selector.command 0).wellFormed = false ∧ (Selector.command 4).wellFormed = false := by decide

theorem test_wf_emission : (Selector.emission 2).wellFormed = false := by decide

/-- A header text that is well formed. -/
def goodText : HeaderText where
  version := 2 ^ 32 - 1
  prev := List.replicate 32 0
  merkle := List.replicate 32 0
  time := 0
  bits := [0xff, 0xff, 0, 0x1d]
  nonce := 0

theorem test_wf_header_numbers : goodText.wellFormed = true ∧ { goodText with version := 2 ^ 32 }.wellFormed = false ∧
    { goodText with time := 2 ^ 32 }.wellFormed = false ∧ { goodText with nonce := 2 ^ 32 }.wellFormed = false := by
  decide

theorem test_wf_header_bytes : { goodText with prev := List.replicate 31 0 }.wellFormed = false ∧
    { goodText with merkle := List.replicate 33 0 }.wellFormed = false ∧
    { goodText with bits := [0] }.wellFormed = false := by decide

theorem test_wf_item : (ItemText.record [0xf9] .auto []).wellFormed = false ∧
    (PartText.hdr { goodText with bits := [] }).wellFormed = false ∧
    StreamText.wellFormed [.record markerM .auto [.hdr { goodText with bits := [] }]] = false := by decide

/-! ## Decoding, from R23, R104 and R106 -/

theorem test_decode_framer : decode (.sequencer 0b0001 0) = .ok .frMark ∧ decode (.sequencer 0b0010 0) = .ok .frSize ∧
    decode (.sequencer 0b0011 0) = .ok .frData ∧ decode .acceptedNext = .ok .frNext := by decide

theorem test_decode_hdec : decode (.sequencer 0b0100 0) = .ok .hdChk ∧ decode (.sequencer 0b0100 1) = .ok .hdVer ∧
    decode (.sequencer 0b0100 2) = .ok .hdPrev ∧ decode (.sequencer 0b0100 3) = .ok .hdMrkl ∧
    decode (.sequencer 0b0100 4) = .ok .hdTime ∧ decode (.sequencer 0b0100 5) = .ok .hdBits ∧
    decode (.sequencer 0b0100 6) = .ok .hdNonce ∧ decode (.sequencer 0b0100 7) = .ok .hdPay := by decide

theorem test_decode_diff : decode (.sequencer 0b0101 0) = .ok .dfUnpk ∧ decode (.sequencer 0b0101 1) = .ok .dfTgt ∧
    decode (.sequencer 0b0110 0) = .ok .dfPdif ∧ decode (.sequencer 0b0111 0) = .ok .dfBdif ∧
    decode (.emission 1) = .ok .dfHex ∧ decode .collaborator = .ok .dfDec := by decide

theorem test_decode_output : decode (.emission 0) = .ok .outEmit ∧
    decodeTableWord 32 0b00000000000000000000000000000001 = some .cmdStart ∧
    decodeTableWord 32 0b00000000000000000000000000000010 = some .cmdNext ∧
    decodeTableWord 32 0b00000000000000000000000000000011 = some .cmdAbort := by decide

theorem test_decode_rejects : decode (.command 0) = .error .noOperation ∧
    decode (.command 4) = .error (.reservedCommand 4) ∧ decode (.sequencer 8 0) = .error (.waitState 8) ∧
    decode (.sequencer 15 0) = .error (.neverTaken 15) ∧ decode (.sequencer 4 8) = .error (.noSuchPlace 8) := by decide

theorem test_decode_frame_errors : decodeFrame [0xf9, 0xbe, 0xb4] = .error .markShort ∧
    decodeFrame (markerM ++ [0x50, 0x00]) = .error .sizeShort ∧
    decodeFrame (markerM ++ [0xff, 0xff, 0xff, 0xff]) = .error .negSize ∧
    decodeFrame (markerM ++ [0x50, 0, 0, 0]) = .error .dataShort := by decide

/-- R169 and vector H7: a field in its bytes. -/
theorem test_encode_word : leBytes 0x47464544 4 = [0x44, 0x45, 0x46, 0x47] ∧
    leUint [0x00, 0x01, 0x02, 0x03] = 50462976 := by decide

/-- R109: `size=-1` is written `ff ff ff ff` before a part that has other bytes. -/
theorem test_expand_record :
    StreamText.expand [.record markerM (.value (-1)) [.fill 0xaa 2], .raw [0x00]] =
      [0xf9, 0xbe, 0xb4, 0xd9, 0xff, 0xff, 0xff, 0xff, 0xaa, 0xaa, 0x00] := by decide

/-- The decimal values R30 and R31 give. -/
theorem test_genesis_constants :
    Config.genesisTarget.toNat = 26959946667150639794667015087019630673637144422540572481103610249215 ∧
    Config.genesisTargetTruncated.toNat = 26959535291011309493156476344723991336010898738574164086137773096960 := by
  decide

/-! ## One step each -/

/-- Vector P1: the marker is stored. -/
theorem test_frMark : seen (step (reading .mark (markerM ++ [0x50]))) (fun t => (t.ph, t.pos, t.marker, t.unread)) =
    some (.size, 4, #v[0xf9, 0xbe, 0xb4, 0xd9], [0x50]) := by decide

/-- Vectors F2, F1a, F1b. -/
theorem test_frMark_ends :
    seen (step (reading .mark [0xf9, 0xbe, 0xb4])) (fun t => (t.status, t.err, t.pos)) = some (0x69, ⟨1, 1, 0, 0⟩, 3) ∧
    seen (step (reading .mark [])) (fun t => (t.status, t.err)) = some (0x8a, ⟨0, 0, 0, 0⟩) ∧
    seen (step { reading .mark [] with ctrl := 1 }) (fun t => (t.status, t.err)) = some (0x69, ⟨1, 1, 0, 0⟩) := by
  decide

/-- The size table: `1d 01 00 00` is 285, `ff ff ff 7f` the greatest. -/
theorem test_frSize : seen (step (reading .size [0x1d, 0x01, 0, 0])) (fun t => (t.ph, t.sizeInt)) = some (.data, 285) ∧
    seen (step (reading .size [0xff, 0xff, 0xff, 0x7f])) (fun t => (t.ph, t.sizeInt)) = some (.data, 2147483647) := by
  decide

/-- Vectors F7, F8, F4. -/
theorem test_frSize_errors :
    seen (step { reading .size [0xff, 0xff, 0xff, 0xff] with pos := 4 }) (fun t => (t.sizeInt, t.err, t.pos)) =
      some (-1, ⟨1, 4, 4, 0⟩, 8) ∧
    seen (step { reading .size [0, 0, 0, 0x80] with pos := 4 }) (fun t => (t.sizeInt, t.err.sub)) =
      some (-2147483648, 4) ∧
    seen (step { reading .size [0x50, 0] with pos := 4 }) (fun t => (t.err, t.pos)) = some (⟨1, 2, 4, 0⟩, 6) := by decide

/-- R133: 81 bytes of data, the last of which is payload; then 2 bytes, which leave the other 78 of `HBUF`. -/
theorem test_frData :
    seen (step { reading .data (List.replicate 80 0xaa ++ [0xee]) with size := 81, pos := 8 })
      (fun t => (t.ph, t.pos, t.len, t.hbuf[79], t.unread)) = some (.hdec, 89, 81, 0xaa, []) ∧
    seen (step { reading .data [0x11, 0x22] with size := 2, hbuf := headerH2 })
      (fun t => (t.hbuf[1], t.hbuf[2], t.len)) = some (0x22, 2, 2) := by decide

/-- Vectors F14 and F9: a short read of data, and a record without data. -/
theorem test_frData_short :
    seen (step { reading .data (List.replicate 30 0xaa) with size := 50, pos := 8 }) (fun t => (t.err, t.pos, t.term)) =
      some (⟨1, 3, 8, 0⟩, 38, true) ∧
    seen (step { reading .data [] with size := 0, pos := 8 }) (fun t => (t.ph, t.pos, t.len)) = some (.hdec, 8, 0) := by
  decide

/-- R134. -/
theorem test_frNext : seen (exec .frNext (faultHeld false)) (fun t => (t.ph, t.recIdx, t.err)) =
    some (.mark, 1, ⟨0, 0, 0, 0⟩) := by decide

/-- Vector H4, with `REC_START` = 1000. -/
theorem test_hdChk :
    seen (step { inPhase .hdec with len := 79, recStart := 1000 }) (fun t => (t.status, t.err)) =
      some (0x29, ⟨2, 0, 1008, 0⟩) ∧
    seen (step { inPhase .hdec with len := 80 }) (fun t => (t.ph, t.slot)) = some (.hdec, 1) := by decide

/-- Vector H2, field by field. -/
theorem test_hdVer : seen (step (decodingH2 1)) (fun t => (t.w.version, t.slot)) = some (50462976, 2) := by decide

theorem test_hdPrev : seen (step (decodingH2 2)) (fun t => (t.w.prevHash[0], t.w.prevHash[31])) = some (0x04, 0x23) := by
  decide

theorem test_hdMrkl : seen (step (decodingH2 3)) (fun t => (t.w.merkleRoot[0], t.w.merkleRoot[31])) =
    some (0x24, 0x43) := by decide

theorem test_hdTime : seen (step (decodingH2 4)) (fun t => t.w.timestamp) = some 1195787588 := by decide

theorem test_hdBits : seen (step (decodingH2 5)) (fun t => t.w.bits) = some #v[0x48, 0x49, 0x4a, 0x1b] := by decide

theorem test_hdNonce : seen (step (decodingH2 6)) (fun t => t.w.nonce) = some 1330531660 := by decide

/-- Vector H4: 81 gives 1 and 2147483647 gives 2147483567. -/
theorem test_hdPay : seen (step (decodingH2 7)) (fun t => (t.ph, t.w.payloadLen)) = some (.tgt, 1) ∧
    seen (step { decodingH2 7 with len := 2147483647 }) (fun t => t.w.payloadLen) = some 2147483567 := by decide

/-- Vector T2: `cb 04 04 1b`. -/
theorem test_dfUnpk :
    seen (step { inPhase .tgt with w := { State.reset.w with bits := #v[0xcb, 0x04, 0x04, 0x1b] } })
      (fun t => (t.w.exp, t.w.mant, t.slot)) = some (27, 263371, 1) := by decide

/-- Vector T1. -/
theorem test_dfTgt : seen (step (unpacked 29 65535)) (fun t => (t.ph, t.w.target.toNat)) =
    some (.pdif, 26959535291011309493156476344723991336010898738574164086137773096960) := by decide

/-- Vectors T12 and T14b. -/
theorem test_dfTgt_errors : seen (step (unpacked 2 0)) (fun t => t.err) = some ⟨3, 1, 80, 0⟩ ∧
    seen (step (unpacked 33 1)) (fun t => t.err) = some ⟨3, 2, 80, 0⟩ := by decide

/-- Vector H2. -/
theorem test_dfPdif : seen (step (withTarget .pdif latchesH2.target)) (fun t => (t.ph, t.w.pq, t.w.pr)) =
    some (.bdif, 882, 0xf85efffffffffffffffffffffffffffffffffffffffffffffffff) := by decide

/-- Vector T16. -/
theorem test_dfPdif_zero : seen (step (withTarget .pdif 0)) (fun t => (t.status, t.err)) =
    some (0x29, ⟨4, 1, 80, 0⟩) := by decide

/-- Vector H2; the commit is part of the step (R230). -/
theorem test_dfBdif : seen (step (withTarget .bdif latchesH2.target)) (fun t => (t.status, t.res.bdiffQ, t.res.bdiffR)) =
    some (0x18, 882, 0xe85f0000000000000000000000000000000000000000000000000) := by decide

theorem test_dfBdif_zero : seen (step (withTarget .bdif 0)) (fun t => t.err) = some ⟨4, 2, 80, 0⟩ := by decide

/-- Vector T1: the tenth digit is the first `f`, in either case. -/
theorem test_dfHex :
    (targetText .lower Config.genesisTargetTruncated)[1] = 0x78 ∧
    (targetText .lower Config.genesisTargetTruncated)[9] = 0x30 ∧
    (targetText .lower Config.genesisTargetTruncated)[10] = 0x66 ∧
    (targetText .upper Config.genesisTargetTruncated)[13] = 0x46 ∧
    (targetText .lower Config.genesisTargetTruncated)[14] = 0x30 := by decide

/-- R201: five quarters has two places, a third has no finite expansion; the numeral 1.25 denotes five quarters. -/
theorem test_dfDec : decimalPlaces 5 4 = some 2 ∧ decimalPlaces 1 3 = none ∧
    denotes ['1', '.', '2', '5'] 5 4 = true ∧ denotes ['1', '.', '2'] 5 4 = false ∧
    plainDecimal 5 4 2 = ['1', '.', '2', '5'] := by decide

/-- R230: `PAYLOAD_POS` of H2. -/
theorem test_outEmit : seen (exec .outEmit { heldH2 with ph := .bdif }) (fun t => (t.status, t.res.payloadPos, t.res.bitsU32)) =
    some (0x18, 88, 457853256) := by decide

/-- R233, and vector O3 for EMIT. -/
theorem test_cmdStart :
    seen (step (given { State.reset with pos := 7 } (.hostWrite 1 1))) (fun t => (t.ph, t.pos)) = some (.mark, 0) ∧
    seen (step (given heldH2 (.hostWrite 1 1))) (fun t => t.ph) = some .emit := by decide

/-- R234 in both modes, and vector O3 for a terminal error. -/
theorem test_cmdNext : seen (step (given heldH2 (.hostWrite 1 2))) (fun t => (t.ph, t.recIdx)) = some (.mark, 1) ∧
    seen (step (given { heldH2 with ctrl := 1 } (.hostWrite 1 2))) (fun t => t.status) = some 0x8a ∧
    seen (step (given (faultHeld true) (.hostWrite 1 2))) (fun t => t.status) = some 0x69 := by decide

/-- Vector O4. -/
theorem test_cmdAbort : seen (step (given { heldH2 with ctrl := 1 } (.hostWrite 1 3)))
    (fun t => (t.ph, t.pos, t.status, t.ctrl)) = some (.idle, 0, 0, 1) ∧
    seen (step (given { heldH2 with ctrl := 1 } .rst)) (fun t => (t.ph, t.pos, t.status, t.ctrl)) =
      some (.idle, 0, 0, 0) := by decide

/-- Vector O5. -/
theorem test_ctrl : seen (step (given State.reset (.hostWrite 0 0xffffffff))) (fun t => t.ctrl) = some 1 ∧
    seen (step (given { heldH2 with ctrl := 1 } (.hostWrite 0 0))) (fun t => t.ctrl) = some 1 := by decide

/-- R32, R35, R237: `CMD` reads 0, `SIZE` reads signed, a result needs RDY. -/
theorem test_hostRead : readReg heldH2 1 = .ok (.uint 32 0) ∧ readReg heldH2 16 = .ok (.uint 32 50462976) ∧
    readReg { heldH2 with size := 0xffffffff } 11 = .ok (.sint 32 (-1)) ∧
    readReg State.reset 16 = .error (.resultNotReady 16) := by decide

/-- R78, R303: a byte goes behind those already offered; a binding replaces them. -/
theorem test_stream : seen (step (given { inPhase .mark with unread := [1] } (.deliver 2))) (fun t => t.unread) = some [1, 2] ∧
    seen (step (given { State.reset with unread := [1] } (.bind [7] true))) (fun t => (t.unread, t.eos)) =
      some ([7], true) := by decide

/-- R308: after `rst` in mid-stream START counts from 0 at the next byte (log entry 24). -/
theorem test_restart_without_binding :
    seen (step (given { inPhase .hdec with unread := [5], pos := 88 } .rst)) (fun t => (t.ph, t.pos, t.unread)) =
      some (.idle, 0, [5]) ∧
    seen (step (given { State.reset with unread := [5] } (.hostWrite 1 1))) (fun t => (t.ph, t.pos, t.unread)) =
      some (.mark, 0, [5]) := by decide

/-- R240: the first word a host writes runs first. -/
theorem test_withFetchWord : seen (step (State.reset.withFetchWord 32 1)) (fun t => t.ph) = some .mark := by decide

/-! ## For each statement with hypotheses, what meets them -/

theorem wit_StepPerformsSelectedOperation :
    Instr.cmdStart.wellFormed = true ∧
    ((inPhase .mark).inputs = [] ∧ decode (.sequencer (inPhase .mark).ph.code (inPhase .mark).slot) = .ok .frMark) ∧
    ((given (inPhase .hdec 7) .core).inputs = .core :: [] ∧ decode (.sequencer (inPhase .hdec 7).ph.code 7) = .ok .hdPay) ∧
    ((given heldH2 (.hostWrite 1 2)).inputs = .hostWrite 1 2 :: [] ∧ decode (.command 2) = .ok .cmdNext) ∧
    decodeTableWord 32 3 = some .cmdAbort ∧
    ((given heldH2 .hostRender).inputs = .hostRender :: [] ∧ decode .collaborator = .ok .dfDec) ∧
    (heldH2.inputs = [] ∧ heldH2.ph.isRun = false) ∧
    decode (.command 4) = .error (.reservedCommand 4) := by decide

theorem wit_CommandWordsAreComparedWhole :
    ((0 : Word) ≠ 1 ∧ (0 : Word) ≠ 2 ∧ (0 : Word) ≠ 3) ∧ ((4 : Word) ≠ 1 ∧ (4 : Word) ≠ 2 ∧ (4 : Word) ≠ 3) := by decide

theorem wit_SelectorsAndOperationsMatch :
    (Selector.sequencer 4 7).wellFormed = true ∧ (Selector.sequencer 5 1).wellFormed = true ∧
    (Selector.command 3).wellFormed = true ∧ (Selector.emission 1).wellFormed = true := by decide

theorem wit_RecordFrameDecodeEncodeRoundTrip :
    (Frame.mk (toBytes 4 markerM) [0xee]).data.length < 2 ^ 31 ∧
    decodeFrame (markerM ++ [1, 0, 0, 0, 0xee, 0x55]) = .ok (⟨toBytes 4 markerM, [0xee]⟩, [0x55]) ∧
    decodeFrame (markerM ++ [0, 0, 0, 0]) = .ok (⟨toBytes 4 markerM, []⟩, []) := by decide

theorem wit_HeaderTextIsInverseOfFieldExtraction : goodText.wellFormed = true := by decide

theorem wit_HeaderByteBelongsToOneField :
    (0xff : Byte) ≠ headerH2[(0 : Fin 80)] ∧ (0xff : Byte) ≠ headerH2[(79 : Fin 80)] := by decide

theorem wit_FrMarkReadsMarkerOrEndsOrRaises :
    (reading .mark (markerM ++ [0x50])).unread = 0xf9 :: 0xbe :: 0xb4 :: 0xd9 :: [0x50] ∧
    ((reading .mark []).unread = [] ∧ (reading .mark []).eos = true ∧ (reading .mark []).single = false) ∧
    ((reading .mark [1, 2, 3]).unread.length < 4 ∧ (reading .mark [1, 2, 3]).eos = true ∧
      (reading .mark [1, 2, 3]).unread ≠ []) ∧
    ({ reading .mark [] with ctrl := 1 }.unread.length < 4 ∧ { reading .mark [] with ctrl := 1 }.eos = true ∧
      { reading .mark [] with ctrl := 1 }.single = true) := by decide

theorem wit_FrSizeReadsSignedSizeOrRaises :
    ((reading .size [0, 0, 0, 0]).unread = 0 :: 0 :: 0 :: 0 :: [] ∧ (0 : Word).toInt = leSint32 [0, 0, 0, 0] ∧
      0 ≤ (0 : Word).toInt) ∧
    ((0xffffffff : Word).toInt = leSint32 [0xff, 0xff, 0xff, 0xff] ∧ (0xffffffff : Word).toInt < 0) ∧
    ((reading .size [1, 2, 3]).unread.length < 4 ∧ (reading .size [1, 2, 3]).eos = true) := by decide

theorem wit_FrDataKeepsHeaderBytesOrRaises :
    (0 ≤ { reading .data [0x11, 0x22] with size := 2 }.sizeInt ∧
      { reading .data [0x11, 0x22] with size := 2 }.unread = [0x11, 0x22] ++ [] ∧
      (([0x11, 0x22] : List Byte).length : Int) = { reading .data [0x11, 0x22] with size := 2 }.sizeInt) ∧
    (0 ≤ (reading .data []).sizeInt ∧ (reading .data []).unread = [] ++ [] ∧
      (([] : List Byte).length : Int) = (reading .data []).sizeInt) ∧
    (({ reading .data [0x11] with size := 2 }.unread.length : Int) < { reading .data [0x11] with size := 2 }.sizeInt ∧
      { reading .data [0x11] with size := 2 }.eos = true) := by decide

theorem wit_FrNextDisposesOfRecord : heldH2.single = false ∧ { heldH2 with ctrl := 1 }.single = true := by decide

theorem wit_ReadsWaitForStream :
    { inPhase .mark with unread := [1, 2, 3] }.eos = false ∧ { inPhase .mark with unread := [1, 2, 3] }.unread.length < 4 ∧
    ({ inPhase .data with size := 1 }.unread.length : Int) < { inPhase .data with size := 1 }.sizeInt := by decide

theorem wit_HdChkRaisesBelowEightyBytes :
    80 ≤ { inPhase .hdec with len := 80 }.len.toNat ∧ { inPhase .hdec with len := 79 }.len.toNat < 80 := by decide

theorem wit_HdPayCountsPayloadFromEighty : 80 ≤ { inPhase .hdec 7 with len := 80 }.len.toNat := by decide

theorem wit_HdecAndTgtGroupsRunInOrder : (decodingH2 0).ph = .hdec ∧ (decodingH2 0).slot = 0 ∧ (decodingH2 0).inputs = [] ∧
    80 ≤ (decodingH2 0).len.toNat ∧
    (packed 3).ph = .tgt ∧ (packed 3).slot = 0 ∧ (packed 3).inputs = [] ∧ 3 ≤ (packed 3).w.bits[3].toNat ∧
    (packed 32).w.bits[3].toNat ≤ 32 := by decide

theorem wit_DfTgtAssemblesTargetOrRaises :
    (3 ≤ (unpacked 3 1).w.exp.toNat ∧ (unpacked 3 1).w.exp.toNat ≤ 32) ∧
    (3 ≤ (unpacked 32 1).w.exp.toNat ∧ (unpacked 32 1).w.exp.toNat ≤ 32) ∧
    (unpacked 2 1).w.exp.toNat < 3 ∧ 32 < (unpacked 33 1).w.exp.toNat := by decide

theorem wit_TargetHoldsMantissaBytesByExponent :
    3 ≤ (unpacked 32 0x123456).w.exp.toNat ∧ (unpacked 32 0x123456).w.exp.toNat ≤ 32 ∧
    ∃ t, exec .dfTgt (unpacked 32 0x123456) = .next t := ⟨by decide, by decide, _, rfl⟩

theorem wit_DfPdifDividesGenesisTargetExactly :
    (withTarget .pdif 1).w.target ≠ 0 ∧ (withTarget .pdif 0).w.target = 0 := by decide

theorem wit_DfBdifDividesTruncatedTargetAndEmits :
    (withTarget .bdif 1).w.target ≠ 0 ∧ (withTarget .bdif 0).w.target = 0 := by decide

theorem wit_QuotientAndRemainderBounds :
    ((withTarget .pdif 1).w.target ≠ 0 ∧ (withTarget .pdif 1).w.target = 1 ∧
      ∃ t, exec .dfPdif (withTarget .pdif 1) = .next t) ∧
    ((withTarget .bdif 1).w.target ≠ 0 ∧ ∃ t, exec .dfBdif (withTarget .bdif 1) = .next t) :=
  ⟨⟨by decide, by decide, _, rfl⟩, by decide, _, rfl⟩

theorem wit_DfDecRendersHeldRatios : heldH2.ph = .emit ∧ State.reset.ph ≠ .emit := by decide

theorem wit_FiniteExpansionsAreRenderedExactly : 0 < 4 ∧ 4 ∣ 5 * 10 ^ 2 := by decide

theorem wit_CmdStartBeginsRunFromIdle : State.reset.ph = .idle ∧ heldH2.ph ≠ .idle := by decide

theorem wit_CmdNextPerformsFrNextWhereAccepted :
    heldH2.ph = .emit ∧ ((faultHeld false).ph = .fault ∧ (faultHeld false).term = false) ∧
    ((faultHeld true).ph ≠ .emit ∧ ((faultHeld true).ph = .fault → (faultHeld true).term = true)) ∧
    (State.reset.ph ≠ .emit ∧ (State.reset.ph = .fault → State.reset.term = true)) := by decide

theorem wit_CmdAbortRestoresResetValuesKeepsCtrl :
    heldH2.ph = .emit ∧ (faultHeld true).ph = .fault ∧ (inPhase .done).ph = .done ∧ State.reset.ph = .idle ∧
    (inPhase .mark).ph.isRun = true := by decide

theorem wit_UnacceptedCommandsAreIgnored :
    acceptsCommand heldH2 .cmdStart = false ∧ acceptsCommand heldH2 .cmdNext = true ∧
    acceptsCommand (faultHeld true) .cmdNext = false ∧ acceptsCommand (faultHeld true) .cmdAbort = true ∧
    acceptsCommand State.reset .cmdAbort = false ∧ acceptsCommand State.reset .cmdStart = true := by decide

theorem wit_RunPhasesIgnoreHostWrites : (given (inPhase .mark) (.hostWrite 1 3)).ph.isRun = true ∧
    (given (inPhase .mark) (.hostWrite 1 3)).inputs = .hostWrite 1 3 :: [] := by decide

theorem wit_CtrlChangesOnlyByHostInIdle :
    ((given State.reset (.hostWrite 0 1)).inputs = .hostWrite 0 1 :: [] ∧ (given State.reset (.hostWrite 0 1)).ph = .idle) ∧
    ((given heldH2 (.hostWrite 0 1)).inputs = .hostWrite 0 1 :: [] ∧ (given heldH2 (.hostWrite 0 1)).ph ≠ .idle) ∧
    ∃ t, step (given State.reset (.hostWrite 0 1)) = .next t ∧ t.ctrl ≠ (given State.reset (.hostWrite 0 1)).ctrl :=
  ⟨by decide, by decide, _, rfl, by decide⟩

theorem wit_StatusBitsFollowPhase :
    (State.reset.ph = .idle ∧ State.reset.term = false) ∧ (heldH2.ph = .emit ∧ heldH2.term = false) ∧
    ((faultHeld false).ph = .fault ∧ (faultHeld false).term = false) ∧
    ((inPhase .done).ph = .done ∧ (inPhase .done).term = false) ∧
    ((faultHeld true).ph = .fault ∧ (faultHeld true).term = true) := by decide

theorem wit_ResultReadsNeedReady :
    heldH2.ph = .emit ∧
    16 ≤ (16 : BitVec 6).toNat ∧ (16 : BitVec 6).toNat ≤ 30 ∧ 16 ≤ (30 : BitVec 6).toNat ∧
    (30 : BitVec 6).toNat ≤ 30 ∧ heldH2.rdy = true ∧ State.reset.rdy = false := by decide

theorem wit_HostReadsHaveNoEffectOnCore :
    (given heldH2 (.hostRead 21)).inputs = .hostRead 21 :: [] ∧
    readReg (given heldH2 (.hostRead 21)) 21 = .ok (.uint 32 457853256) ∧
    (15 : BitVec 6).toNat < 16 ∧ 30 < (31 : BitVec 6).toNat ∧
    (1 : BitVec 6).toNat = 1 ∧ (13 ≤ (13 : BitVec 6).toNat ∧ (15 : BitVec 6).toNat ≤ 15) ∧
    (31 : BitVec 6).toNat = 31 ∧ 34 ≤ (34 : BitVec 6).toNat ∧ 34 ≤ (63 : BitVec 6).toNat := by decide

theorem wit_ConstantsAreReadOnly : 2 ≤ (2 : BitVec 6).toNat ∧ 2 ≤ (32 : BitVec 6).toNat ∧
    (given State.reset (.hostWrite 32 0)).inputs = .hostWrite 32 0 :: [] := by decide

theorem wit_RstRestoresResetValuesInAnyPhase : (given (inPhase .bdif) .rst).inputs = .rst :: [] := by decide

theorem wit_StreamBytesAreReadOnceAndNeverWritten :
    (∃ t, exec .frMark (reading .mark (markerM ++ [0x50])) = .next t ∧ t.pos ≤ 4 ∧ 3 < t.pos) ∧
    (∃ t, exec .cmdStart { State.reset with pos := 7, unread := [0x50] } = .next t) ∧
    ∃ t, exec .dfHex heldH2 = .next t :=
  ⟨⟨_, rfl, by decide, by decide⟩, ⟨_, rfl⟩, _, rfl⟩

theorem wit_ReadsAreFullOrConsumeTheRest :
    4 ≤ (reading .mark markerM).unread.length ∧
    ((reading .mark [1, 2, 3]).unread.length < 4 ∧ (reading .mark [1, 2, 3]).eos = true) := by decide

theorem wit_PositionCountsConsumedBytes :
    ((∃ t, step (reading .mark markerM) = .next t) ∧ (∀ b e rest, (reading .mark markerM).inputs ≠ .bind b e :: rest) ∧
      ∀ b rest, (reading .mark markerM).inputs ≠ .deliver b :: rest) ∧
    ((given (inPhase .mark) (.deliver 0xf9)).inputs = .deliver 0xf9 :: [] ∧
      (given (inPhase .mark) (.deliver 0xf9)).eos = false) ∧
    (given (inPhase .mark) .endOfStream).inputs = .endOfStream :: [] ∧
    ((given State.reset (.bind markerM true)).inputs = .bind markerM true :: [] ∧
      (given State.reset (.bind markerM true)).ph = .idle) ∧
    ((given (inPhase .mark) (.bind markerM true)).unread = [] ∧ (given (inPhase .mark) (.bind markerM true)).eos = false ∧
      (given (inPhase .mark) (.bind markerM true)).pos = 0) :=
  ⟨⟨⟨_, rfl⟩, by simp [reading, inPhase, State.reset], by simp [reading, inPhase, State.reset]⟩, by decide⟩

theorem wit_ResultsChangeOnlyByEmission :
    ∃ t, exec .outEmit { heldH2 with res := State.reset.res } = .next t ∧ t.res ≠ State.reset.res := by
  refine ⟨_, rfl, fun h => ?_⟩
  exact absurd (congrArg Results.version h) (by decide)

theorem wit_ResultIsImmutableWhileHeld :
    heldH2.ph = .emit ∧ ∃ t, step (given heldH2 (.hostRead 21)) = .next t ∧ t.ph = .emit := ⟨rfl, _, rfl, rfl⟩

theorem wit_TrapEntryWritesErrorRegisters :
    (unpacked 2 0).ph ≠ .fault ∧ (∃ t, exec .dfTgt (unpacked 2 0) = .next t ∧ t.ph = .fault) ∧
    16 ≤ (16 : BitVec 6).toNat ∧ (30 : BitVec 6).toNat ≤ 30 := ⟨by decide, ⟨_, rfl, rfl⟩, by decide, by decide⟩

/-- FR.SIZE and FR.DATA about to raise, in states that meet the invariant. -/
theorem wit_TrapEntryWritesErrorRegisters_framing :
    (shortSize.Inv ∧ shortSize.ph = .size ∧ ∃ t, exec .frSize shortSize = .next t ∧ t.ph = .fault) ∧
    (shortData.Inv ∧ shortData.ph = .data ∧ ∃ t, exec .frData shortData = .next t ∧ t.ph = .fault) := by
  refine ⟨⟨?_, rfl, _, rfl, rfl⟩, ⟨?_, rfl, _, rfl, rfl⟩⟩ <;> constructor <;>
    first
    | decide
    | exact fun h => absurd h (by decide)

theorem wit_ErrorRegistersChangeOnlyByTrapAndReturn :
    ∃ t, exec .cmdNext (faultHeld false) = .next t ∧ t.ph ≠ .fault ∧ t.err ≠ (faultHeld false).err :=
  ⟨_, rfl, by decide, by decide⟩

theorem wit_HeldErrorIsNeverOverwritten : (faultHeld true).ph = .fault ∧ ∃ t, step (faultHeld true) = .next t :=
  ⟨rfl, _, rfl⟩

theorem wit_TerminalErrorEndsOnlyByAbortOrReset :
    (faultHeld true).ph = .fault ∧ (faultHeld true).term = true ∧
    ∃ t, step (given (faultHeld true) (.hostWrite 1 3)) = .next t := ⟨rfl, rfl, _, rfl⟩

/-- The result of H2 held, and its `CMD.NEXT`: a state that meets the invariant in every clause. -/
theorem heldH2_inv : State.Inv (given heldH2 (.hostWrite 1 2)) where
  place := by decide
  ctrlReserved := by decide
  noError _ := ⟨rfl, rfl⟩
  errorHeld h := absurd h (by decide)
  atStart h := absurd h (by decide)
  afterMark h := absurd h (by decide)
  afterSize h := absurd h (by decide)
  framed _ := ⟨rfl, by decide, rfl⟩
  checked _ := by decide
  version _ := by decide
  prevHash _ := rfl
  merkleRoot _ := rfl
  timestamp _ := by decide
  bits _ := by decide
  nonce _ := by decide
  payload _ := by decide
  unpacked _ := by decide
  target _ := by decide
  pdifficulty _ := by decide
  bdifficulty _ := by decide
  result _ := rfl

theorem wit_StepKeepsInvariant :
    (given heldH2 (.hostWrite 1 2)).Inv ∧ ∃ t, step (given heldH2 (.hostWrite 1 2)) = .next t := ⟨heldH2_inv, _, rfl⟩

theorem wit_SafeStatesNeverFault : (given heldH2 (.hostWrite 1 2)).Inv := heldH2_inv

theorem wit_StepsAreRefusedOnlyOutsideTheDomain :
    step (given State.reset (.hostRead 16)) = .refused (.resultNotReady 16) ∧
    step (given State.reset .hostRender) = .refused (.resultNotReady 25) ∧
    step (given { reading .mark [1] with pos := 1 } (.bind [] false)) = .refused .streamInUse ∧
    step (given (reading .mark []) (.deliver 0)) = .refused .byteAfterEnd := ⟨rfl, rfl, rfl, rfl⟩

/-- R240: CMD.NEXT leaves FAULT with `TERM` = 0 only. -/
theorem test_allowedTransition_term : allowedTransition false false .fault .mark = true ∧
    allowedTransition false true .fault .mark = false ∧ allowedTransition true true .fault .done = false ∧
    allowedTransition false true .fault .idle = true := by decide

theorem wit_PhaseTransitionsAreTheTables :
    (given heldH2 (.hostWrite 1 2)).Inv ∧ ∃ t, step (given heldH2 (.hostWrite 1 2)) = .next t ∧ t.ph = .mark :=
  ⟨heldH2_inv, _, rfl, rfl⟩

theorem wit_HeldResultRatiosAreExact : (given heldH2 (.hostWrite 1 2)).Inv ∧
    (given heldH2 (.hostWrite 1 2)).ph = .emit := ⟨heldH2_inv, rfl⟩

theorem wit_ResultRegistersNeverFeedBack :
    agreeOnDataPath (unpacked 29 65535) { unpacked 29 65535 with res := heldH2.res } ∧
    (∃ t, step (unpacked 29 65535) = .next t) ∧
    step { inPhase .data with size := 0xffffffff } = .fault .negativeReadLength ∧
    step (given State.reset (.hostRead 16)) = .refused (.resultNotReady 16) := ⟨rfl, ⟨_, rfl⟩, rfl, rfl⟩

theorem wit_InstanceStepsCommute :
    (0 : Nat) ≠ 1 ∧ ∃ c d, stepInstance 0 [reading .mark markerM, heldH2] = .next c ∧ stepInstance 1 c = .next d :=
  ⟨by decide, _, _, rfl, rfl⟩

theorem wit_HardwareProducesReferenceRun :
    { State.reset with unread := markerM, eos := true }.ph = .idle ∧
    { State.reset with unread := markerM, eos := true }.inputs = [] ∧
    { State.reset with unread := markerM, eos := true }.eos = true := by decide

end Sys2Proof.Tests
end

/-! # Which operation a step performs, and how CORE's operations follow each other -/

section

namespace Sys2Proof.Machine

/-! ## Selection: what a step fetches and performs -/

/-- With no input left a step performs the operation of CORE's phase and place (R11, R23). -/
theorem step_of_decodePhase {s : State} {i : Instr} (hin : s.inputs = []) (hd : decodePhase s.ph.code s.slot = .ok i) :
    step s = exec i s := by
  apply step_eq_of_fetch_run
  simpa only [fetch, hin] using coreTurn_run hd

/-- With an input left a step does what that input says (log entry 3). -/
theorem fetch_of_inputs_cons {s : State} {x : Input} {rest : List Input} (hin : s.inputs = x :: rest) :
    fetch s = takeInput x { s with inputs := rest } := by
  simp only [fetch, hin]

/-- A write of a command word to `CMD` is a step of that command (R35, R106). -/
theorem step_of_command {s : State} {word : Word} {rest : List Input} {i : Instr}
    (hin : s.inputs = .hostWrite 1 word :: rest) (hd : decodeCommand word = .ok i) :
    step s = exec i { s with inputs := rest } := by
  apply step_eq_of_fetch_run
  simp only [fetch_of_inputs_cons hin, takeInput, if_true, commandWrite, decode, hd]

/-- A write of a word that is no command to `CMD` changes nothing (R35, R106). -/
theorem step_of_no_command {s : State} {word : Word} {rest : List Input} (hin : s.inputs = .hostWrite 1 word :: rest)
    (hd : ∀ j, decodeCommand word ≠ .ok j) : step s = .next { s with inputs := rest } := by
  apply step_eq_of_fetch_settled
  rcases he : decodeCommand word with e | j
  · simp only [fetch_of_inputs_cons hin, takeInput, if_true, commandWrite, decode, he]
  · exact absurd he (hd j)

/-- A command pushed in front of every input is performed next, and the other inputs stay (R106, log entry 15). -/
theorem step_pushCommand {v : Nat} {i : Instr} (s : State) (hd : decodeCommand (BitVec.ofNat 32 v) = .ok i) :
    step (pushCommand v s) = exec i s :=
  step_of_command (pushCommand_inputs s v) hd

/-- A word of the opcode table is a command word of 32 bits (R104, R106). -/
theorem decodeCommand_of_decodeTableWord {nbits w : Nat} {i : Instr} (h : decodeTableWord nbits w = some i) :
    decodeCommand (BitVec.ofNat 32 (w % 2 ^ nbits)) = .ok i := by
  unfold decodeTableWord at h
  split at h
  · split at h
    · cases h
      assumption
    · cases h
  · cases h

/-- Settles O1: each clause is what `fetch` finds for that selector. -/
theorem stepPerformsSelectedOperation : Obligations.StepPerformsSelectedOperation := by
  intro s i _
  refine ⟨step_of_decodePhase, ?core, fun _ _ => step_of_command, ?tableWord, ?render, ?wait,
    fun _ _ => step_of_no_command⟩
  case core =>
    intro rest hin hd
    exact step_eq_of_fetch_run ((fetch_of_inputs_cons hin).trans (coreTurn_run hd))
  case tableWord =>
    intro nbits w hd
    exact step_pushCommand s (decodeCommand_of_decodeTableWord hd)
  case render =>
    intro rest hin hd
    cases hd
    exact step_eq_of_fetch_run (fetch_of_inputs_cons hin)
  case wait =>
    intro hin hw
    apply step_eq_of_fetch_settled
    simpa only [fetch, hin] using coreTurn_wait hw

/-! ## Runs of CORE's own operations -/

/-- `k` operations of CORE lead from one state to another, each performed in a run phase with no input waiting
(R11, R240). -/
inductive CoreSteps : Nat → State → State → Prop where
  | refl (s : State) : CoreSteps 0 s s
  | head {k : Nat} {s t u : State} (run : s.ph.isRun = true) (first : step s = .next t) (rest : CoreSteps k t u) :
      CoreSteps (k + 1) s u

/-- A phase and place that select an operation belong to a run phase (R23). -/
theorem isRun_of_decodePhase {s : State} {i : Instr} (hd : decodePhase s.ph.code s.slot = .ok i) :
    s.ph.isRun = true := by
  by_contra hw
  have hwait := coreTurn_wait (Bool.eq_false_iff.mpr hw)
  rw [coreTurn_run hd] at hwait
  cases hwait

namespace CoreSteps

variable {j k n : Nat} {s t u : State} {p : Phase} {i : Instr}

/-- CORE performs the operation of its place, and goes on. -/
theorem perform (hin : s.inputs = []) (hp : s.ph = p) (hs : s.slot = n) (hd : decodePhase p.code n = .ok i)
    (he : exec i s = .next t) (rest : CoreSteps k t u) : CoreSteps (k + 1) s u := by
  subst hp hs
  exact head (isRun_of_decodePhase hd) ((step_of_decodePhase hin hd).trans he) rest

/-- CORE performs the operation of its place. -/
theorem one (hin : s.inputs = []) (hp : s.ph = p) (hs : s.slot = n) (hd : decodePhase p.code n = .ok i)
    (he : exec i s = .next t) : CoreSteps 1 s t :=
  perform hin hp hs hd he (refl t)

theorem trans (first : CoreSteps j s t) (rest : CoreSteps k t u) : CoreSteps (k + j) s u := by
  induction first with
  | refl => exact rest
  | head run first _ ih => exact head run first (ih rest)

/-- The host's runner makes the same steps. -/
theorem run_eq (h : CoreSteps k s t) : Host.Core.run Sys2Proof.core k s = .next t := by
  induction h with
  | refl => rfl
  | head _ first _ ih => simpa only [Host.Core.run, Sys2Proof.core, first] using ih

/-- A HOST that only answers outcomes lets CORE make them. -/
theorem drive_eq (h : CoreSteps k s t) (n : Nat) : drive (n + k) s = drive n t := by
  induction h with
  | refl => rfl
  | @head k s t u run first _ ih =>
    rw [← ih, ← Nat.add_assoc, drive]
    have hstep : stepOrStay s = t := by simp only [stepOrStay, first]
    cases hp : s.ph <;> simp_all [Phase.isRun]

end CoreSteps

/-! ## The HDEC and DIFF operations of a record -/

/-- `s` at the beginning of another phase's group, with other latches: what the operations from HDEC to BDIF make of a
state. -/
def State.withLatches (s : State) (p : Phase) (w : Latches) : State := { s with ph := p, slot := 0, w := w }

/-- The latches after the HDEC group (R161 to R167). -/
def headerLatches (w : Latches) (h : Bytes 80) (len : Word) : Latches :=
  { w with
    version := (decodeHeader h).version
    prevHash := (decodeHeader h).prevHash
    merkleRoot := (decodeHeader h).merkleRoot
    timestamp := (decodeHeader h).timestamp
    bits := (decodeHeader h).bits
    nonce := (decodeHeader h).nonce
    payloadLen := payloadLength len }

/-- The latches after DF.UNPK (R190). -/
def unpackedLatches (w : Latches) : Latches :=
  { w with exp := (decodeCompact w.bits).exponent, mant := (decodeCompact w.bits).mantissa }

/-- The latches after the TGT group (R190, R191). -/
def targetLatches (w : Latches) : Latches :=
  { unpackedLatches w with
    target := BitVec.ofNat 256 (targetOf (decodeCompact w.bits).exponent.toNat (decodeCompact w.bits).mantissa.toNat) }

/-- The latches after DF.PDIF and DF.BDIF (R196, R197). -/
def ratioLatches (w : Latches) : Latches :=
  { w with
    pq := BitVec.ofNat 256 (Config.genesisTarget.toNat / w.target.toNat)
    pr := BitVec.ofNat 256 (Config.genesisTarget.toNat % w.target.toNat)
    bq := BitVec.ofNat 256 (Config.genesisTargetTruncated.toNat / w.target.toNat)
    br := BitVec.ofNat 256 (Config.genesisTargetTruncated.toNat % w.target.toNat) }

section

variable {s : State}

theorem exec_hdChk_of_le (h : 80 ≤ s.len.toNat) : exec .hdChk s = .next (nextPlace s) :=
  if_neg (Nat.not_lt.mpr h)

theorem exec_hdChk_of_lt (h : s.len.toNat < 80) : exec .hdChk s = .next (takeError .truncated (s.recStart + 8) s) :=
  if_pos h

theorem exec_dfTgt_of_low (h : s.w.exp.toNat < 3) : exec .dfTgt s = .next (takeError .expLow (s.recStart + 80) s) :=
  if_pos h

theorem exec_dfTgt_of_high (h : 32 < s.w.exp.toNat) :
    exec .dfTgt s = .next (takeError .expHigh (s.recStart + 80) s) := by
  have hlow : ¬ s.w.exp.toNat < 3 := by omega
  simp only [exec, execDfTgt, Config.expMin, Config.expMax, hlow, h, if_false, if_true]

theorem exec_dfTgt_of_inRange (hl : 3 ≤ s.w.exp.toNat) (hh : s.w.exp.toNat ≤ 32) :
    exec .dfTgt s = .next (setPhase .pdif
      { s with w := { s.w with target := BitVec.ofNat 256 (targetOf s.w.exp.toNat s.w.mant.toNat) } }) := by
  simp only [exec, execDfTgt, Config.expMin, Config.expMax, Nat.not_lt.mpr hl, Nat.not_lt.mpr hh, if_false]

theorem exec_dfPdif_of_zero (h : s.w.target.toNat = 0) :
    exec .dfPdif s = .next (takeError .divPdif (s.recStart + 80) s) :=
  if_pos h

theorem exec_dfPdif_of_ne (h : s.w.target.toNat ≠ 0) :
    exec .dfPdif s = .next (setPhase .bdif { s with w := { s.w with
      pq := BitVec.ofNat 256 (Config.genesisTarget.toNat / s.w.target.toNat)
      pr := BitVec.ofNat 256 (Config.genesisTarget.toNat % s.w.target.toNat) } }) :=
  if_neg h

theorem exec_dfBdif_of_ne (h : s.w.target.toNat ≠ 0) :
    exec .dfBdif s = .next (commitResult { s with w := { s.w with
      bq := BitVec.ofNat 256 (Config.genesisTargetTruncated.toNat / s.w.target.toNat)
      br := BitVec.ofNat 256 (Config.genesisTargetTruncated.toNat % s.w.target.toNat) } }) :=
  if_neg h

/-- The HDEC group (R23, R168). -/
theorem coreSteps_hdec (hin : s.inputs = []) (hp : s.ph = .hdec) (hs : s.slot = 0) (hl : 80 ≤ s.len.toNat) :
    CoreSteps 8 s (s.withLatches .tgt (headerLatches s.w s.hbuf s.len)) := by
  refine .perform hin hp hs rfl (exec_hdChk_of_le hl) ?_
  refine .perform (n := 1) (i := .hdVer) hin hp (by simp [hs]) rfl rfl ?_
  refine .perform (n := 2) (i := .hdPrev) hin hp (by simp [hs]) rfl rfl ?_
  refine .perform (n := 3) (i := .hdMrkl) hin hp (by simp [hs]) rfl rfl ?_
  refine .perform (n := 4) (i := .hdTime) hin hp (by simp [hs]) rfl rfl ?_
  refine .perform (n := 5) (i := .hdBits) hin hp (by simp [hs]) rfl rfl ?_
  refine .perform (n := 6) (i := .hdNonce) hin hp (by simp [hs]) rfl rfl ?_
  exact .one (n := 7) (i := .hdPay) hin hp (by simp [hs]) rfl rfl

/-- DF.UNPK, and what DF.TGT makes of the unpacked exponent (R23). -/
theorem coreSteps_tgt {t : State} (hin : s.inputs = []) (hp : s.ph = .tgt) (hs : s.slot = 0)
    (ht : exec .dfTgt (nextPlace { s with w := unpackedLatches s.w }) = .next t) : CoreSteps 2 s t :=
  .perform hin hp hs rfl rfl (.one (n := 1) hin hp (by simp [hs]) rfl ht)

/-- The TGT group with the exponent in range (R190, R191). -/
theorem coreSteps_tgt_of_inRange (hin : s.inputs = []) (hp : s.ph = .tgt) (hs : s.slot = 0)
    (hl : 3 ≤ (decodeCompact s.w.bits).exponent.toNat) (hh : (decodeCompact s.w.bits).exponent.toNat ≤ 32) :
    CoreSteps 2 s (s.withLatches .pdif (targetLatches s.w)) :=
  coreSteps_tgt hin hp hs (exec_dfTgt_of_inRange hl hh)

/-- DF.PDIF and DF.BDIF, with the commit of the result, for a target that is not zero (R196, R197, R230). -/
theorem coreSteps_ratios (hin : s.inputs = []) (hp : s.ph = .pdif) (hs : s.slot = 0) (ht : s.w.target.toNat ≠ 0) :
    CoreSteps 2 s (commitResult (s.withLatches .bdif (ratioLatches s.w))) :=
  .perform hin hp hs rfl (exec_dfPdif_of_ne ht) (.one (p := .bdif) hin rfl rfl rfl (exec_dfBdif_of_ne ht))

end

/-- The exponent is the last of the four bytes, the mantissa the number of the first three (R98, R190). -/
theorem decodeCompact_toNat (b : Bytes 4) :
    (decodeCompact b).exponent.toNat = b[3].toNat ∧
    (decodeCompact b).mantissa.toNat = leUint [b[0], b[1], b[2]] := by
  have hlt : leUint [b[0], b[1], b[2]] < 256 ^ 3 := leUint_lt [b[0], b[1], b[2]]
  refine ⟨rfl, ?_⟩
  rw [decodeCompact, BitVec.toNat_ofNat]
  exact Nat.mod_eq_of_lt (by omega)

/-- Settles O19: the two groups, each a run of CORE's operations. -/
theorem hdecAndTgtGroupsRunInOrder : Obligations.HdecAndTgtGroupsRunInOrder := by
  refine ⟨fun s hp hs hin hl => ?hdec, fun s hp hs hin hl hh => ?tgt⟩
  case hdec => exact ⟨_, payloadLength_toNat _ hl, (coreSteps_hdec hin hp hs hl).run_eq⟩
  case tgt =>
    obtain ⟨hexp, hmant⟩ := decodeCompact_toNat s.w.bits
    refine ⟨(decodeCompact s.w.bits).mantissa, _, ?_, ?_, (coreSteps_tgt_of_inRange hin hp hs hl hh).run_eq⟩
    · simp only [hmant, leUint]
      omega
    · rw [hexp, toNat_ofNat_256 _ (targetOf_lt _ _ hh (BitVec.isLt _)), targetOf]

end Sys2Proof.Machine

end

/-! # The machine computes `Run`

A record's operations are a run of CORE's steps (`CoreSteps`) to the outcome `refDecode` gives; HOST's answer leads to
the next record boundary, and so the loop of R12 is followed pass by pass. -/

section

namespace Sys2Proof.Machine

/-! ## The header buffer as the reference reads it -/

theorem byteRange_length {b : List Byte} {i j : Nat} (h : j ≤ b.length) : (byteRange b i j).length = j - i := by
  simp only [byteRange, List.length_take, List.length_drop]
  omega

/-- FR.DATA keeps the first 80 bytes of data that are long enough (R133). -/
theorem keepHeader_toList {data : List Byte} (old : Bytes 80) (h : 80 ≤ data.length) :
    (keepHeader data old).toList = data.take 80 := by
  apply List.ext_getElem
  · simp only [Vector.length_toList, List.length_take]
    omega
  · intro i hi _
    have hlt : i < 80 := by simpa using hi
    simp [Vector.getElem_toList, List.getElem?_eq_getElem (show i < data.length by omega)]

/-- A field of the header buffer is the byte range of the data at its offset (R96, R133). -/
theorem slice_keepHeader_toList {data : List Byte} (old : Bytes 80) (h : 80 ≤ data.length) (o n : Nat)
    (inside : o + n ≤ 80) : (slice (keepHeader data old) o n inside).toList = byteRange data o (o + n) := by
  rw [slice_toList, keepHeader_toList old h, byteRange, List.drop_take, List.take_take]
  congr 1
  omega

theorem slice_keepHeader {data : List Byte} (old : Bytes 80) (h : 80 ≤ data.length) (o n : Nat)
    (inside : o + n ≤ 80) : slice (keepHeader data old) o n inside = toBytes n (byteRange data o (o + n)) := by
  apply Vector.toList_inj.mp
  rw [slice_keepHeader_toList old h, toBytes_toList]
  rw [byteRange_length (by omega)]
  omega

/-- A register assembled from a byte range holds the range's number (R101). -/
theorem leWord_byteRange {data : List Byte} {o j : Nat} (hj : j = o + 4) (h : j ≤ data.length) :
    leWord (toBytes 4 (byteRange data o j)) = BitVec.ofNat 32 (leUint (byteRange data o j)) := by
  rw [leWord, toBytes_toList]
  rw [byteRange_length h]
  omega

/-- The header fields of the kept data are those R231 reads from the data (R96). -/
theorem decodeHeader_keepHeader {data : List Byte} (old : Bytes 80) (h : 80 ≤ data.length) :
    decodeHeader (keepHeader data old) =
      { version := BitVec.ofNat 32 (leUint (byteRange data 0 4))
        prevHash := toBytes 32 (byteRange data 4 36)
        merkleRoot := toBytes 32 (byteRange data 36 68)
        timestamp := BitVec.ofNat 32 (leUint (byteRange data 68 72))
        bits := toBytes 4 (byteRange data 72 76)
        nonce := BitVec.ofNat 32 (leUint (byteRange data 76 80)) } := by
  simp (disch := omega) only [decodeHeader, slice_keepHeader old h, leWord_byteRange, Nat.reduceAdd]

/-- Exponent and mantissa of the kept data are those R231 reads from the data (R98). -/
theorem decodeCompact_byteRange {data : List Byte} (h : 80 ≤ data.length) :
    (decodeCompact (toBytes 4 (byteRange data 72 76))).exponent.toNat = leUint (byteRange data 75 76) ∧
    (decodeCompact (toBytes 4 (byteRange data 72 76))).mantissa.toNat = leUint (byteRange data 72 75) := by
  obtain ⟨hexp, hmant⟩ := decodeCompact_toNat (toBytes 4 (byteRange data 72 76))
  have hthree : byteRange data 72 75 = (byteRange data 72 76).take 3 := by
    simp [byteRange, List.take_take]
  have hlast : byteRange data 75 76 = (byteRange data 72 76).drop 3 := by
    simp [byteRange, List.drop_take]
  have hlen : (byteRange data 72 76).length = 4 := byteRange_length (by omega)
  rw [hexp, hmant, hthree, hlast]
  match byteRange data 72 76, hlen with
  | [b0, b1, b2, b3], _ => simp [leUint]

/-! ## The latches as the reference's result -/

/-- The latches of the HDEC and TGT groups for kept data. -/
def recordLatches (w : Latches) (data : List Byte) (old : Bytes 80) (len : Word) : Latches :=
  targetLatches (headerLatches w (keepHeader data old) len)

section

variable {data : List Byte} (old : Bytes 80) (w : Latches) (len : Word)

/-- The unpacked exponent is the reference's (R190). -/
theorem headerLatches_exponent (h : 80 ≤ data.length) :
    (decodeCompact (headerLatches w (keepHeader data old) len).bits).exponent.toNat =
      leUint (byteRange data 75 76) := by
  rw [headerLatches, decodeHeader_keepHeader old h]
  exact (decodeCompact_byteRange h).1

/-- `W_TARGET` is the target of R231 when the exponent is in range (R203). -/
theorem recordLatches_target (h : 80 ≤ data.length) :
    (recordLatches w data old len).target = BitVec.ofNat 256 (refTarget data) := by
  obtain ⟨hexp, hmant⟩ := decodeCompact_byteRange h
  simp only [recordLatches, targetLatches, headerLatches, decodeHeader_keepHeader old h, targetOf, hexp, hmant,
    refTarget]

/-- The target of R231 fits its register when the exponent is in range (R199). -/
theorem refTarget_lt (h : 80 ≤ data.length) (hh : leUint (byteRange data 75 76) ≤ 32) :
    refTarget data < 2 ^ 256 := by
  have hm := leUint_lt (byteRange data 72 75)
  rw [byteRange_length (by omega)] at hm
  exact targetOf_lt _ _ hh hm

/-- The result committed for kept data is the result record of R231 (R230). -/
theorem resultOf_recordLatches (h : 80 ≤ data.length) (hh : leUint (byteRange data 75 76) ≤ 32)
    (hlen : len.toNat = data.length) (start : Nat) :
    resultOf (ratioLatches (recordLatches w data old len)) start = refResult data start := by
  have ht := recordLatches_target old w len h
  have hpay : payloadLength len = BitVec.ofNat 32 (data.length - 80) := by
    simp only [payloadLength, Config.hdrLen, hlen, h, if_true]
  have hbits := leWord_byteRange (data := data) (o := 72) (j := 76) rfl (by omega)
  simp only [resultOf, ratioLatches, ht, toNat_ofNat_256 _ (refTarget_lt h hh), genesisTarget_toNat,
    genesisTargetTruncated_toNat, refResult]
  simp only [recordLatches, targetLatches, unpackedLatches, headerLatches, decodeHeader_keepHeader old h, hpay, hbits]

end

/-! ## A record that has been framed gives the reference's outcome -/

/-- `t` holds the outcome `o` of a record for HOST to answer with CMD.NEXT, and has not touched STREAM, the inputs, the
mode and the record's place since `s`. -/
structure HoldsOutcome (s t : State) (o : RefOutcome) : Prop where
  accepts : t.acceptsNext = true
  outcome : t.outcome = o
  inputs : t.inputs = s.inputs
  unread : t.unread = s.unread
  eos : t.eos = s.eos
  ctrl : t.ctrl = s.ctrl
  pos : t.pos = s.pos
  recIdx : t.recIdx = s.recIdx

/-- A record-scoped error is an outcome to be answered (R263, R266). -/
theorem holdsOutcome_takeError {c : Cause} (hc : c.terminal = false) (s : State) (p : Phase) (w : Latches)
    (errPos : Nat) :
    HoldsOutcome s (takeError c errPos (s.withLatches p w)) (refError c errPos s.recIdx) where
  accepts := by simp [State.acceptsNext, hc]
  outcome := rfl
  inputs := rfl
  unread := rfl
  eos := rfl
  ctrl := rfl
  pos := rfl
  recIdx := rfl

/-- A committed result is an outcome to be answered (R231). -/
theorem holdsOutcome_commitResult (s : State) (p : Phase) (w : Latches) :
    HoldsOutcome s (commitResult (s.withLatches p w))
      (.ok (resultOf w s.recStart) s.marker s.sizeInt s.recIdx s.recStart) where
  accepts := rfl
  outcome := rfl
  inputs := rfl
  unread := rfl
  eos := rfl
  ctrl := rfl
  pos := rfl
  recIdx := rfl

/-- From HDEC with the data kept, CORE's operations lead to the outcome `Decode` gives (R12, R240, R268). -/
theorem coreSteps_refDecode {s : State} {data : List Byte} {old : Bytes 80} (hin : s.inputs = []) (hp : s.ph = .hdec)
    (hs : s.slot = 0) (hbuf : s.hbuf = keepHeader data old) (hlen : s.len.toNat = data.length) {marker : List Byte}
    (hm : s.marker = toBytes 4 marker) :
    ∃ k t, CoreSteps k s t ∧ HoldsOutcome s t (refDecode data marker s.sizeInt s.recStart s.recIdx) := by
  unfold refDecode
  by_cases hshort : data.length < 80
  · rw [if_pos hshort]
    exact ⟨1, _, .one hin hp hs rfl (exec_hdChk_of_lt (by omega)), holdsOutcome_takeError rfl s s.ph s.w _⟩
  have h80 : 80 ≤ data.length := by omega
  have hexp := headerLatches_exponent old s.w s.len h80
  have hhdec := coreSteps_hdec hin hp hs (by omega)
  rw [hbuf] at hhdec
  rw [if_neg hshort, ← hexp]
  split_ifs with hlow hhigh hzero
  · exact ⟨_, _, hhdec.trans (coreSteps_tgt hin rfl rfl (exec_dfTgt_of_low hlow)),
      holdsOutcome_takeError rfl s .tgt _ _⟩
  · exact ⟨_, _, hhdec.trans (coreSteps_tgt hin rfl rfl (exec_dfTgt_of_high hhigh)),
      holdsOutcome_takeError rfl s .tgt _ _⟩
  all_goals
    have htgt := hhdec.trans (coreSteps_tgt_of_inRange hin rfl rfl (Nat.not_lt.mp hlow) (Nat.not_lt.mp hhigh))
    have htarget : (recordLatches s.w data old s.len).target.toNat = refTarget data := by
      rw [recordLatches_target old s.w s.len h80, toNat_ofNat_256 _ (refTarget_lt h80 (by omega))]
  · exact ⟨_, _, htgt.trans (.one hin rfl rfl rfl (exec_dfPdif_of_zero (htarget.trans hzero))),
      holdsOutcome_takeError rfl s .pdif _ _⟩
  · rw [← resultOf_recordLatches old s.w s.len h80 (by omega) hlen, ← hm]
    exact ⟨_, _, htgt.trans (coreSteps_ratios hin rfl rfl (htarget.trans_ne hzero)),
      holdsOutcome_commitResult s .bdif _⟩

/-! ## Framing a record -/

/-- The state after FR.MARK with the four bytes there (R131). -/
def State.afterMark (s : State) : State :=
  setPhase .size { s with
    unread := s.unread.drop 4, pos := s.pos + 4, recStart := s.pos, marker := toBytes 4 (s.unread.take 4) }

/-- `s` with the four bytes of a size field consumed (R132). -/
def State.sizeRead (s : State) : State :=
  { s with unread := s.unread.drop 4, pos := s.pos + 4, size := BitVec.ofInt 32 (leSint32 (s.unread.take 4)) }

/-- The state after FR.MARK and FR.SIZE with eight bytes there and a size that is not negative (R131, R132). -/
def State.framed (s : State) : State := setPhase .data s.afterMark.sizeRead

/-- The state after FR.DATA with `SIZE` bytes there (R133). -/
def State.afterData (s : State) : State :=
  setPhase .hdec { s with
    unread := s.unread.drop s.sizeInt.toNat, pos := s.pos + s.sizeInt.toNat, len := s.size,
    hbuf := keepHeader (s.unread.take s.sizeInt.toNat) s.hbuf }

/-- `s` with the stream consumed to its end (R63). -/
def State.drained (s : State) : State := { s with unread := [], pos := s.pos + s.unread.length }

section

variable {s : State}

theorem exec_frMark_full (h : 4 ≤ s.unread.length) : exec .frMark s = .next s.afterMark := by
  simp only [exec, execFrMark, Config.markLen, memRead_full h, State.afterMark]

theorem exec_frMark_end (he : s.eos = true) (h : s.single = false ∧ s.unread.length = 0) :
    exec .frMark s = .next (setPhase .done s.drained) := by
  simp only [exec, execFrMark, Config.markLen, memRead_short (show s.unread.length < 4 by omega) he]
  exact if_pos h.symm

theorem exec_frMark_short (he : s.eos = true) (h : s.unread.length < 4)
    (hm : ¬ (s.single = false ∧ s.unread.length = 0)) :
    exec .frMark s = .next (takeError .markShort s.pos s.drained) := by
  simp only [exec, execFrMark, Config.markLen, memRead_short h he]
  exact if_neg fun hk => hm hk.symm

theorem exec_frSize_short (he : s.eos = true) (h : s.unread.length < 4) :
    exec .frSize s = .next (takeError .sizeShort s.pos s.drained) := by
  simp only [exec, execFrSize, Config.sizeLen, memRead_short h he, State.drained]

theorem exec_frSize_negative (h : 4 ≤ s.unread.length) (hz : leSint32 (s.unread.take 4) < 0) :
    exec .frSize s = .next (takeError .negSize s.pos s.sizeRead) := by
  simp only [exec, execFrSize, Config.sizeLen, memRead_full h, hz, if_true, State.sizeRead]

theorem exec_frSize_full (h : 4 ≤ s.unread.length) (hz : ¬ leSint32 (s.unread.take 4) < 0) :
    exec .frSize s = .next (setPhase .data s.sizeRead) := by
  simp only [exec, execFrSize, Config.sizeLen, memRead_full h, hz, if_false, State.sizeRead]

theorem afterMark_unread_length : s.afterMark.unread.length = s.unread.length - 4 := List.length_drop

/-- FR.MARK and FR.SIZE of a record with a whole head (R131, R132). -/
theorem coreSteps_framed (hin : s.inputs = []) (hp : s.ph = .mark) (hs : s.slot = 0) (h8 : 8 ≤ s.unread.length)
    (hz : ¬ leSint32 (byteRange s.unread 4 8) < 0) : CoreSteps 2 s s.framed := by
  refine .perform hin hp hs rfl (exec_frMark_full (by omega)) (.one hin rfl rfl rfl (exec_frSize_full ?_ hz))
  rw [afterMark_unread_length]
  omega

theorem framed_unread : s.framed.unread = s.unread.drop 8 := List.drop_drop

/-- `SIZE` is the signed number of the size field (R102, R132). -/
theorem framed_sizeInt (h8 : 8 ≤ s.unread.length) : s.framed.sizeInt = leSint32 (byteRange s.unread 4 8) :=
  leSint32_toInt _ (byteRange_length (i := 4) h8)

theorem exec_frData_short (he : s.eos = true) (hz : ¬ s.sizeInt < 0) (h : s.unread.length < s.sizeInt.toNat) :
    exec .frData s = .next (takeError .dataShort s.pos s.drained) := by
  simp only [exec, execFrData, hz, if_false, memRead_short h he, State.drained]

theorem exec_frData_full (hz : ¬ s.sizeInt < 0) (h : s.sizeInt.toNat ≤ s.unread.length) :
    exec .frData s = .next s.afterData := by
  simp only [exec, execFrData, hz, if_false, memRead_full h, State.afterData]

/-- A length that is not negative is the same number signed and unsigned (R25, R26). -/
theorem size_toNat (hz : ¬ s.sizeInt < 0) : s.size.toNat = s.sizeInt.toNat := by
  have hi : s.sizeInt = s.size.toInt := rfl
  have hlt := s.size.isLt
  rw [hi] at hz ⊢
  rw [BitVec.toInt_eq_toNat_cond] at hz ⊢
  split_ifs at hz ⊢ <;> omega

end

/-- From the phase DATA with `SIZE` bytes there, CORE's operations lead to the outcome `Decode` gives on them (R12). -/
theorem coreSteps_record {s : State} (hin : s.inputs = []) (hp : s.ph = .data) (hs : s.slot = 0)
    (hz : ¬ s.sizeInt < 0) (hfull : s.sizeInt.toNat ≤ s.unread.length) {marker : List Byte}
    (hm : s.marker = toBytes 4 marker) :
    ∃ k t, CoreSteps k s t ∧ HoldsOutcome s.afterData t
      (refDecode (s.unread.take s.sizeInt.toNat) marker s.sizeInt s.recStart s.recIdx) := by
  have hlen : s.afterData.len.toNat = (s.unread.take s.sizeInt.toNat).length := by
    rw [List.length_take_of_le hfull]
    exact size_toNat hz
  obtain ⟨k, t, hrun, ht⟩ := coreSteps_refDecode (s := s.afterData) hin rfl rfl rfl hlen hm
  exact ⟨_, t, (CoreSteps.one hin hp hs rfl (exec_frData_full hz hfull)).trans hrun, ht⟩

/-! ## One pass of the reference's loop -/

section

variable {single : Bool} {bound pos idx : Nat} {rest : List Byte} {size : Int}

theorem refLoop_exhausted (h : single = false ∧ rest.length = 0) :
    refLoop single (bound + 1) rest pos idx = ([], .exhausted) :=
  if_pos h

theorem refLoop_markShort (h : ¬ (single = false ∧ rest.length = 0)) (h4 : rest.length < 4) :
    refLoop single (bound + 1) rest pos idx = ([refError .markShort pos idx], .terminal) := by
  rw [refLoop, if_neg h, if_pos h4]

/-- A pass with the four bytes of a marker goes on with the size field. -/
theorem refLoop_sizeShort (h4 : 4 ≤ rest.length) (h8 : rest.length < 8) :
    refLoop single (bound + 1) rest pos idx = ([refError .sizeShort (pos + 4) idx], .terminal) := by
  rw [refLoop, if_neg (by omega), if_neg (by omega), if_pos h8]

theorem refLoop_negSize (h8 : 8 ≤ rest.length) (hz : leSint32 (byteRange rest 4 8) < 0) :
    refLoop single (bound + 1) rest pos idx = ([refError .negSize (pos + 4) idx], .terminal) := by
  rw [refLoop, if_neg (by omega), if_neg (by omega), if_neg (by omega)]
  exact if_pos hz

theorem refLoop_dataShort (h8 : 8 ≤ rest.length) (hsize : size = leSint32 (byteRange rest 4 8)) (hz : ¬ size < 0)
    (hd : rest.length - 8 < size.toNat) :
    refLoop single (bound + 1) rest pos idx = ([refError .dataShort (pos + 8) idx], .terminal) := by
  subst hsize
  rw [refLoop, if_neg (by omega), if_neg (by omega), if_neg (by omega)]
  exact (if_neg hz).trans (if_pos hd)

/-- A pass that frames a record gives its outcome, then the rest of the run: none in SINGLE mode (R12). -/
theorem refLoop_record (h8 : 8 ≤ rest.length) (hsize : size = leSint32 (byteRange rest 4 8)) (hz : ¬ size < 0)
    (hd : size.toNat ≤ rest.length - 8) :
    refLoop single (bound + 1) rest pos idx =
      (refDecode ((rest.drop 8).take size.toNat) (byteRange rest 0 4) size pos idx ::
        (if single then ([], .exhausted)
         else refLoop single bound ((rest.drop 8).drop size.toNat) (pos + 8 + size.toNat) (idx + 1)).1,
       (if single then ([], .exhausted)
         else refLoop single bound ((rest.drop 8).drop size.toNat) (pos + 8 + size.toNat) (idx + 1)).2) := by
  have hdata : byteRange rest 8 (8 + size.toNat) = (rest.drop 8).take size.toNat := by
    rw [byteRange, Nat.add_sub_cancel_left]
  subst hsize
  rw [List.drop_drop, ← hdata, refLoop, if_neg (by omega), if_neg (by omega), if_neg (by omega)]
  refine (if_neg hz).trans ((if_neg (Nat.not_lt.mpr hd)).trans ?_)
  cases single <;> rfl

end

/-! ## Runs under a HOST that answers -/

/-- Driven from `s`, the machine gives these outcomes and ends like this (R12, R242). -/
def Produces (s : State) (r : List RefOutcome × RefEnd) : Prop :=
  ∃ n, (drive n s).1 = r.1 ∧ (drive n s).2.runEnd = some r.2

section

variable {s t : State} {r : List RefOutcome × RefEnd}

theorem CoreSteps.produces {k : Nat} (h : CoreSteps k s t) (ht : Produces t r) : Produces s r := by
  obtain ⟨n, houts, hend⟩ := ht
  exact ⟨n + k, by rw [h.drive_eq, houts], by rw [h.drive_eq, hend]⟩

/-- In DONE the run has ended (R321). -/
theorem produces_of_done (h : s.ph = .done) : Produces s ([], .exhausted) :=
  ⟨0, rfl, by simp [drive, State.runEnd, h]⟩

/-- A terminal error is the last outcome (R260, R321). -/
theorem produces_takeError {c : Cause} (hc : c.terminal = true) (errPos : Nat) (s : State) :
    Produces (takeError c errPos s) ([refError c errPos s.recIdx], .terminal) := by
  have hterm : (takeError c errPos s).term = true := hc
  refine ⟨1, ?_, ?_⟩ <;> simp only [drive, takeError_ph, hterm, if_true]
  · rfl
  · simp only [State.runEnd, takeError_ph, hterm, if_true]

/-- CMD.NEXT where it is accepted disposes of the record (R234). -/
theorem stepOrStay_next (h : s.acceptsNext = true) : stepOrStay (pushCommand 2 s) = disposeRecord s := by
  have hstep : step (pushCommand 2 s) = .next (disposeRecord s) :=
    (step_pushCommand (i := .cmdNext) s rfl).trans (if_pos h)
  simp only [stepOrStay, hstep]

/-- HOST takes an outcome, answers with CMD.NEXT and drives on (R242). -/
theorem produces_of_acceptsNext (h : s.acceptsNext = true) (hr : Produces (disposeRecord s) r) :
    Produces s (s.outcome :: r.1, r.2) := by
  obtain ⟨n, houts, hend⟩ := hr
  have hdrive : drive (n + 1) s = (s.outcome :: (drive n (disposeRecord s)).1, (drive n (disposeRecord s)).2) := by
    rw [drive, stepOrStay_next h]
    cases hp : s.ph <;> simp_all [State.acceptsNext]
  exact ⟨n + 1, by rw [hdrive, houts], by rw [hdrive, hend]⟩

/-- An outcome held is given, and HOST drives on. -/
theorem HoldsOutcome.produces {o : RefOutcome} (h : HoldsOutcome s t o) (hr : Produces (disposeRecord t) r) :
    Produces t (o :: r.1, r.2) :=
  h.outcome ▸ produces_of_acceptsNext h.accepts hr

/-- The loop of `Run` (R12) from a record boundary, by induction on its bound: every pass is the operations of one
record, and the pass after it starts where FR.NEXT leaves the machine. -/
theorem produces_refLoop (bound : Nat) (hin : s.inputs = []) (he : s.eos = true) (hp : s.ph = .mark) (hs : s.slot = 0)
    (hb : s.unread.length < bound) : Produces s (refLoop s.single bound s.unread s.pos s.recIdx) := by
  induction bound generalizing s with
  | zero => omega
  | succ bound ih =>
    by_cases hend : s.single = false ∧ s.unread.length = 0
    · rw [refLoop_exhausted hend]
      exact (CoreSteps.one hin hp hs rfl (exec_frMark_end he hend)).produces (produces_of_done rfl)
    by_cases hmark : s.unread.length < 4
    · rw [refLoop_markShort hend hmark]
      exact (CoreSteps.one hin hp hs rfl (exec_frMark_short he hmark hend)).produces (produces_takeError rfl _ _)
    have marked := CoreSteps.one hin hp hs rfl (exec_frMark_full (Nat.not_lt.mp hmark))
    have hlen : s.afterMark.unread.length = s.unread.length - 4 := afterMark_unread_length
    by_cases hsize : s.unread.length < 8
    · rw [refLoop_sizeShort (Nat.not_lt.mp hmark) hsize]
      have short := exec_frSize_short (s := s.afterMark) he (by omega)
      exact (marked.trans (.one hin rfl rfl rfl short)).produces (produces_takeError rfl _ _)
    have h8 : 8 ≤ s.unread.length := Nat.not_lt.mp hsize
    by_cases hneg : leSint32 (byteRange s.unread 4 8) < 0
    · rw [refLoop_negSize h8 hneg]
      have negative := exec_frSize_negative (s := s.afterMark) (by omega) hneg
      exact (marked.trans (.one hin rfl rfl rfl negative)).produces (produces_takeError rfl _ _)
    have framed := coreSteps_framed hin hp hs h8 hneg
    have hframed : s.framed.unread.length = s.unread.length - 8 := by rw [framed_unread, List.length_drop]
    rw [← framed_sizeInt h8] at hneg
    by_cases hdata : s.unread.length - 8 < s.framed.sizeInt.toNat
    · rw [refLoop_dataShort h8 (framed_sizeInt h8) hneg hdata]
      have short := exec_frData_short (s := s.framed) he hneg (by omega)
      exact (framed.trans (.one hin rfl rfl rfl short)).produces (produces_takeError rfl _ _)
    rw [refLoop_record h8 (framed_sizeInt h8) hneg (Nat.not_lt.mp hdata), ← framed_unread]
    obtain ⟨k, t, recorded, ht⟩ := coreSteps_record (s := s.framed) hin rfl rfl hneg (by omega)
      (marker := byteRange s.unread 0 4) rfl
    refine (framed.trans recorded).produces (ht.produces ?_)
    have hmode : t.single = s.single := congrArg (·.getLsbD 0) ht.ctrl
    by_cases hsingle : s.single = true
    · rw [if_pos hsingle]
      exact produces_of_done (by simp [hmode, hsingle])
    · rw [if_neg hsingle]
      have hrest : t.unread = s.framed.unread.drop s.framed.sizeInt.toNat := ht.unread
      have next := ih (s := disposeRecord t) (ht.inputs.trans hin) (ht.eos.trans he) (by simp [hmode, hsingle]) rfl
        (by rw [disposeRecord_unread, hrest, List.length_drop]; omega)
      have hnext : (disposeRecord t).single = s.single := hmode
      rwa [hnext, disposeRecord_unread, hrest, disposeRecord_pos, ht.pos, disposeRecord_recIdx, ht.recIdx] at next

end

/-- Settles O60: START leads to the first record boundary, and the loop does the rest. -/
theorem hardwareProducesReferenceRun : Obligations.HardwareProducesReferenceRun := by
  intro s hp hin he
  have hstart : step (pushCommand 1 s) = .next (setPhase .mark { s with pos := 0, recIdx := 0, recStart := 0 }) :=
    (step_pushCommand (i := .cmdStart) s rfl).trans (if_pos hp)
  obtain ⟨n, houts, hend⟩ := produces_refLoop (s := setPhase .mark { s with pos := 0, recIdx := 0, recStart := 0 })
    (s.unread.length + 1) hin he rfl rfl (Nat.lt_succ_self _)
  exact ⟨_, n, hstart, houts, hend⟩

end Sys2Proof.Machine

end

/-! # What an operation and a step can do to the state

Each said once: which operation a selector names, every form an operation's next state has (`Effect`), every form a
step's next state has. The statements about frames and order are read off these. -/

section

namespace Sys2Proof.Machine

/-! ## Selectors and operations -/

/-- A selector that decodes to an operation is the operation's own selector (R104, R106). -/
theorem encode_of_decode {x : Selector} {i : Instr} (h : decode x = .ok i) : encode i = x := by
  cases x with
  | sequencer phase slot =>
    simp only [decode, decodePhase] at h
    split at h <;> cases h
    all_goals
      rename_i hphase
      exact congrArg (Selector.sequencer · _) (BitVec.eq_of_toNat_eq hphase.symm)
  | command word =>
    simp only [decode, decodeCommand] at h
    split at h <;> cases h
    all_goals
      rename_i hword
      exact congrArg Selector.command (BitVec.eq_of_toNat_eq hword.symm)
  | acceptedNext => cases h; rfl
  | emission slot =>
    simp only [decode, decodeEmission] at h
    split at h <;> cases h <;> rfl
  | collaborator => cases h; rfl

/-- Every place of a phase's group selects an operation (R23, R104). -/
theorem exists_decodePhase_of_lt {phase : BitVec 4} {slot : Nat} (h : slot < groupSizeOfCode phase) :
    ∃ i, decodePhase phase slot = .ok i := by
  unfold groupSizeOfCode at h
  unfold decodePhase
  split at h
  case h_8 => omega
  all_goals
    rename_i hphase
    rw [hphase]
    interval_cases slot <;> exact ⟨_, rfl⟩

/-- Every command word from 1 to 3 is a command (R106). -/
theorem exists_decodeCommand_of_mem {word : Word} (hlow : 1 ≤ word.toNat) (hhigh : word.toNat ≤ 3) :
    ∃ i, decodeCommand word = .ok i := by
  unfold decodeCommand
  interval_cases word.toNat <;> exact ⟨_, rfl⟩

/-- Decoding of a well-formed selector does not fail (R104, R106). -/
theorem exists_decode_of_wellFormed {x : Selector} (h : x.wellFormed = true) : ∃ i, decode x = .ok i := by
  cases x with
  | sequencer phase slot => exact exists_decodePhase_of_lt (by simpa [Selector.wellFormed] using h)
  | command word =>
    obtain ⟨hlow, hhigh⟩ : 1 ≤ word.toNat ∧ word.toNat ≤ 3 := by simpa [Selector.wellFormed] using h
    exact exists_decodeCommand_of_mem hlow hhigh
  | acceptedNext => exact ⟨_, rfl⟩
  | emission slot =>
    have hslot : slot < 2 := by simpa [Selector.wellFormed] using h
    interval_cases slot <;> exact ⟨_, rfl⟩
  | collaborator => exact ⟨_, rfl⟩

/-- The round trip of every operation, from the lemmas per operation. -/
theorem selectionRoundTrip (i : Instr) : Laws.SelectionRoundTrip.Statement i := by
  open Laws.SelectionRoundTrip in
  cases i with
  | frMark => exact frMark
  | frSize => exact frSize
  | frData => exact frData
  | frNext => exact frNext
  | hdChk => exact hdChk
  | hdVer => exact hdVer
  | hdPrev => exact hdPrev
  | hdMrkl => exact hdMrkl
  | hdTime => exact hdTime
  | hdBits => exact hdBits
  | hdNonce => exact hdNonce
  | hdPay => exact hdPay
  | dfUnpk => exact dfUnpk
  | dfTgt => exact dfTgt
  | dfPdif => exact dfPdif
  | dfBdif => exact dfBdif
  | dfHex => exact dfHex
  | dfDec => exact dfDec
  | outEmit => exact outEmit
  | cmdStart => exact cmdStart
  | cmdNext => exact cmdNext
  | cmdAbort => exact cmdAbort

/-- A word HOST writes selects one of the three commands or nothing (R106). -/
theorem decodeCommand_ok {word : Word} {i : Instr} (h : decodeCommand word = .ok i) :
    i = .cmdStart ∨ i = .cmdNext ∨ i = .cmdAbort := by
  unfold decodeCommand at h
  split at h <;> cases h <;> simp

theorem Phase.code_injective {p q : Phase} (h : p.code = q.code) : p = q := by
  cases p <;> cases q <;> simp_all [Phase.code]

section

variable {s : State} {i : Instr} {p : Phase} {n : Nat}

/-- The operation CORE performs is the one whose selector is CORE's phase and place (R11, R23). -/
theorem encode_of_coreTurn {u : State} (h : coreTurn s = .run i u) : encode i = .sequencer s.ph.code s.slot := by
  unfold coreTurn at h
  split at h <;> cases h
  exact encode_of_decode ‹_›

/-- The phase of an operation that CORE performs. -/
theorem phase_of_selected (hc : encode i = .sequencer p.code n) (hsel : encode i = .sequencer s.ph.code s.slot) :
    s.ph = p :=
  Phase.code_injective (Selector.sequencer.inj (hsel.symm.trans hc)).1

/-- The place of an operation that CORE performs. -/
theorem slot_of_selected {c : BitVec 4} (hc : encode i = .sequencer c n)
    (hsel : encode i = .sequencer s.ph.code s.slot) : s.slot = n :=
  (Selector.sequencer.inj (hsel.symm.trans hc)).2

end

/-! ## Operations -/

/-- Every form the next state of an operation has. The shared operations `setPhase`, `takeError`, `commitResult`,
`disposeRecord` and `restoreReset` stand for what they write. -/
inductive Effect (s : State) : Instr → State → Prop where
  /-- A read that waits for STREAM (R78), or a command in a phase that does not accept it (R236). -/
  | unchanged (i : Instr) : Effect s i s
  /-- A framing operation consumes `k` bytes and goes on, or finds the end of the stream (R131 to R133). -/
  | framed {i : Instr} (framing : i = .frMark ∨ i = .frSize ∨ i = .frData) {k : Nat} (inside : k ≤ s.unread.length)
      (p : Phase) (recStart : Nat) (marker : Bytes 4) (size len : Word) (hbuf : Bytes 80) :
      Effect s i (setPhase p { s with
        unread := s.unread.drop k, pos := s.pos + k, recStart := recStart, marker := marker, size := size, len := len,
        hbuf := hbuf })
  /-- An operation raises an error, after it has consumed `k` bytes (R270). -/
  | trapped (i : Instr) {k : Nat} (inside : k ≤ s.unread.length) (size : Word) (c : Cause) (errPos : Nat) :
      Effect s i (takeError c errPos { s with unread := s.unread.drop k, pos := s.pos + k, size := size })
  /-- An operation of HDEC or DIFF writes latches and goes on (R160 to R167, R190 to R196). -/
  | latched (i : Instr) (p : Phase) (slot : Nat) (w : Latches) : Effect s i { s with ph := p, slot := slot, w := w }
  /-- A result is committed (R230). -/
  | committed {i : Instr} (emitting : i = .dfBdif ∨ i = .outEmit) (w : Latches) :
      Effect s i (commitResult { s with w := w })
  /-- DF.HEX writes the text of the target (R200). -/
  | formatted : Effect s .dfHex (writeTargetHex s)
  /-- HOST renders the ratios (R201). -/
  | rendered (texts : Option (List Char × List Char)) : Effect s .dfDec { s with decimals := texts }
  /-- A record is disposed of (R134, R234). -/
  | disposed {i : Instr} (disposing : i = .frNext ∨ i = .cmdNext) : Effect s i (disposeRecord s)
  /-- A run begins (R233). -/
  | started (idle : s.ph = .idle) : Effect s .cmdStart (setPhase .mark { s with pos := 0, recIdx := 0, recStart := 0 })
  /-- The registers return to their reset values (R235). -/
  | aborted : Effect s .cmdAbort (restoreReset s)

section

variable {s t : State} {i : Instr}

/-- A short read consumes what there is (R63). -/
theorem Effect.trapped_short (i : Instr) (c : Cause) (errPos : Nat) :
    Effect s i (takeError c errPos { s with unread := [], pos := s.pos + s.unread.length }) := by
  have h := Effect.trapped (s := s) i (Nat.le_refl _) s.size c errPos
  rwa [List.drop_length] at h

/-- An error raised without a read leaves the stream (R270). -/
theorem Effect.trapped_in_place (i : Instr) (c : Cause) (errPos : Nat) : Effect s i (takeError c errPos s) :=
  .trapped i (Nat.zero_le _) s.size c errPos

/-- An operation that answers a next state has one of the effects listed. -/
theorem effect_of_exec (h : exec i s = .next t) : Effect s i t := by
  cases i with
  | frMark =>
    rcases execFrMark_cases h with ⟨h4, rfl⟩ | ⟨-, -, -, rfl⟩ | ⟨-, -, -, rfl⟩ | ⟨-, -, rfl⟩
    · exact .framed (.inl rfl) h4 _ _ _ _ _ _
    · exact .framed (.inl rfl) (Nat.zero_le _) .done _ _ _ _ _
    · exact .trapped_short _ _ _
    · exact .unchanged _
  | frSize =>
    rcases execFrSize_cases h with ⟨z, h4, -, ⟨-, rfl⟩ | ⟨-, rfl⟩⟩ | ⟨-, -, rfl⟩ | ⟨-, -, rfl⟩
    · exact .framed (.inr (.inl rfl)) h4 _ _ _ _ _ _
    · exact .trapped _ h4 _ _ _
    · exact .trapped_short _ _ _
    · exact .unchanged _
  | frData =>
    rcases execFrData_cases h with ⟨-, ⟨hn, rfl⟩ | ⟨-, -, rfl⟩ | ⟨-, -, rfl⟩⟩
    · exact .framed (.inr (.inr rfl)) hn _ _ _ _ _ _
    · exact .trapped_short _ _ _
    · exact .unchanged _
  | hdChk =>
    rcases execHdChk_cases h with ⟨-, rfl⟩ | ⟨-, rfl⟩
    · exact .latched _ _ _ _
    · exact .trapped_in_place _ _ _
  | dfTgt =>
    rcases execDfTgt_cases h with ⟨-, -, _, -, rfl⟩ | ⟨-, rfl⟩ | ⟨-, rfl⟩
    · exact .latched _ _ _ _
    · exact .trapped_in_place _ _ _
    · exact .trapped_in_place _ _ _
  | dfPdif =>
    rcases execDfPdif_cases h with ⟨-, _, _, -, -, rfl⟩ | ⟨-, rfl⟩
    · exact .latched _ _ _ _
    · exact .trapped_in_place _ _ _
  | dfBdif =>
    rcases execDfBdif_cases h with ⟨-, _, _, -, -, rfl⟩ | ⟨-, rfl⟩
    · exact .committed (.inl rfl) _
    · exact .trapped_in_place _ _ _
  | dfDec =>
    obtain ⟨-, rfl⟩ := execDfDec_cases h
    exact .rendered _
  | cmdStart =>
    rcases execCmdStart_cases h with ⟨hp, rfl⟩ | ⟨-, rfl⟩
    · exact .started hp
    · exact .unchanged _
  | cmdNext =>
    rcases execCmdNext_cases h with ⟨-, rfl⟩ | ⟨-, rfl⟩
    · exact .disposed (.inr rfl)
    · exact .unchanged _
  | cmdAbort =>
    rcases execCmdAbort_cases h with ⟨-, rfl⟩ | ⟨-, rfl⟩
    · exact .aborted
    · exact .unchanged _
  | frNext =>
    cases h
    exact .disposed (.inl rfl)
  | dfHex =>
    cases h
    exact .formatted
  | outEmit =>
    cases h
    exact .committed (.inr rfl) s.w
  | hdVer | hdPrev | hdMrkl | hdTime | hdBits | hdNonce | hdPay | dfUnpk =>
    cases h
    exact .latched _ _ _ _

/-- No operation writes `CTRL` (R34). -/
theorem exec_ctrl (h : exec i s = .next t) : t.ctrl = s.ctrl := by
  cases effect_of_exec h with
  | formatted => exact writeTargetHex_ctrl s
  | _ => rfl

/-- The only operation that is refused is DF.DEC without a result (R32, log entry 9). -/
theorem exec_refused {r : Refusal} (h : exec i s = .refused r) : i = .dfDec ∧ s.rdy = false := by
  cases i with
  | dfDec =>
    simp only [exec, execDfDec] at h
    split at h
    · cases h
    · exact ⟨rfl, Bool.eq_false_iff.mpr ‹_›⟩
  | frMark | frSize | frData | dfPdif | dfBdif | hdChk | dfTgt | cmdStart | cmdNext | cmdAbort =>
    simp only [exec, execFrMark, execFrSize, execFrData, execDfPdif, execDfBdif, execHdChk, execDfTgt, execCmdStart,
      execCmdNext, execCmdAbort] at h
    repeat' split at h
    all_goals cases h
  | frNext | hdVer | hdPrev | hdMrkl | hdTime | hdBits | hdNonce | hdPay | dfUnpk | dfHex | outEmit => cases h

/-- In a run phase no command has an effect (R236, R309). -/
theorem exec_command_of_isRun (hr : s.ph.isRun = true) (hi : i = .cmdStart ∨ i = .cmdNext ∨ i = .cmdAbort) :
    exec i s = .next s := by
  rcases hi with rfl | rfl | rfl
  · exact if_neg (by rintro hp; simp [hp, Phase.isRun] at hr)
  · exact if_neg (by cases hp : s.ph <;> simp_all [State.acceptsNext, Phase.isRun])
  · exact if_neg (by cases hp : s.ph <;> simp_all [State.abortTakesEffect, Phase.isRun])

end

/-! ## Steps -/

/-- `s` with other contents in the fields that are not CORE's registers: STREAM's, the inputs, and what HOST has read
and rendered. -/
def State.withAgents (s : State) (unread : List Byte) (eos : Bool) (inputs : List Input) (hostData : Option RegValue)
    (decimals : Option (List Char × List Char)) : State :=
  { s with unread := unread, eos := eos, inputs := inputs, hostData := hostData, decimals := decimals }

section

variable {s t : State} {x : Input} {rest : List Input}

/-- Everything a step can do to CORE's registers: nothing, an operation that CORE's place or HOST's word selects, a
write of `CTRL`, or reset. -/
theorem step_core_cases (h : step s = .next t) :
    (∃ unread eos inputs hostData decimals, t = s.withAgents unread eos inputs hostData decimals) ∨
    (∃ i, encode i = .sequencer s.popped.ph.code s.popped.slot ∧ exec i s.popped = .next t) ∨
    (∃ i, (i = .cmdStart ∨ i = .cmdNext ∨ i = .cmdAbort) ∧ exec i s.popped = .next t) ∨
    (∃ v rest, s.inputs = .hostWrite 0 v :: rest ∧ s.ph = .idle ∧ t = { s.popped with ctrl := v &&& 1 }) ∨
    (∃ rest, s.inputs = .rst :: rest ∧ t = applyRst s.popped) := by
  rcases step_next_cases h with rfl | ⟨i, hc, he⟩ | ⟨_, i, _, -, hd, he⟩ | hw | ⟨_, _, _, -, -, rfl⟩ | ⟨_, -, he⟩ |
    hr | ⟨_, _, _, -, -, rfl⟩ | ⟨_, _, -, -, rfl⟩ | ⟨_, -, rfl⟩
  · exact .inl ⟨_, _, _, _, _, rfl⟩
  · exact .inr (.inl ⟨i, encode_of_coreTurn hc, he⟩)
  · exact .inr (.inr (.inl ⟨i, decodeCommand_ok hd, he⟩))
  · exact .inr (.inr (.inr (.inl hw)))
  · exact .inl ⟨_, _, _, _, _, rfl⟩
  · obtain ⟨-, rfl⟩ := execDfDec_cases he
    exact .inl ⟨_, _, _, _, _, rfl⟩
  · exact .inr (.inr (.inr (.inr hr)))
  · exact .inl ⟨_, _, _, _, _, rfl⟩
  · exact .inl ⟨_, _, _, _, _, rfl⟩
  · exact .inl ⟨_, _, _, _, _, rfl⟩

/-- An input that is settled by itself is the whole step (log entry 3). -/
theorem step_of_settled {o : Host.Outcome State Fault Refusal} (hin : s.inputs = x :: rest)
    (hx : takeInput x { s with inputs := rest } = .settled o) : step s = o :=
  step_eq_of_fetch_settled ((fetch_of_inputs_cons hin).trans hx)

/-- HOST's write to a register other than `CMD` (R237). -/
theorem step_of_hostWrite {reg : BitVec 6} {v : Word} (hin : s.inputs = .hostWrite reg v :: rest) (hreg : reg ≠ 1) :
    step s = .next (writeReg reg v { s with inputs := rest }) :=
  step_of_settled hin (if_neg hreg)

/-- HOST's write to `CTRL` in IDLE (R34). -/
theorem writeReg_ctrl_of_idle {v : Word} (h : s.ph = .idle) : writeReg 0 v s = { s with ctrl := v &&& 1 } :=
  if_pos ⟨rfl, h⟩

/-- HOST's write to any register outside IDLE (R34, R237). -/
theorem writeReg_of_ne_idle {reg : BitVec 6} {v : Word} (h : s.ph ≠ .idle) : writeReg reg v s = s :=
  if_neg fun hw => h hw.2

/-- HOST's write to a register other than `CTRL` and `CMD` (R33, R237). -/
theorem writeReg_of_ne_ctrl {reg : BitVec 6} {v : Word} (h : reg ≠ 0) : writeReg reg v s = s :=
  if_neg fun hw => h hw.1

/-- A read that has a value (R237, log entry 13). -/
theorem step_of_hostRead {reg : BitVec 6} {v : RegValue} (hin : s.inputs = .hostRead reg :: rest)
    (hv : readReg s reg = .ok v) : step s = .next { s with inputs := rest, hostData := some v } := by
  refine step_of_settled hin ?_
  have hv' : readReg { s with inputs := rest } reg = .ok v := hv
  simp only [takeInput, hv']

end

end Sys2Proof.Machine

end

/-! # Every step keeps the invariant

What the invariant says falls into what the phase says of framing and of the error registers, and one fact per operation
of HDEC and DIFF about the latches (`recordFact`). An operation of HDEC or DIFF adds its fact and keeps those before it;
framing, traps, commands and reset lead to phases that ask for no fact. -/

section

namespace Sys2Proof.Machine

/-! ## The latches' facts -/

/-- What the `k`-th operation of HDEC and DIFF makes true of the latches of a record with this `LEN` and `HBUF` (R160 to
R167, R190 to R197). -/
def recordFact (len : Word) (hbuf : Bytes 80) (w : Latches) : Nat → Prop
  | 1 => 80 ≤ len.toNat
  | 2 => w.version = (decodeHeader hbuf).version
  | 3 => w.prevHash = (decodeHeader hbuf).prevHash
  | 4 => w.merkleRoot = (decodeHeader hbuf).merkleRoot
  | 5 => w.timestamp = (decodeHeader hbuf).timestamp
  | 6 => w.bits = (decodeHeader hbuf).bits
  | 7 => w.nonce = (decodeHeader hbuf).nonce
  | 8 => w.payloadLen.toNat = len.toNat - 80
  | 9 => w.exp = (decodeCompact w.bits).exponent ∧ w.mant = (decodeCompact w.bits).mantissa
  | 10 => 3 ≤ w.exp.toNat ∧ w.exp.toNat ≤ 32 ∧ w.target.toNat = w.mant.toNat * 256 ^ (w.exp.toNat - 3)
  | 11 => w.pq.toNat * w.target.toNat + w.pr.toNat = 2 ^ 224 - 1 ∧ w.pr.toNat < w.target.toNat
  | 12 => w.bq.toNat * w.target.toNat + w.br.toNat = 65535 * 2 ^ 208 ∧ w.br.toNat < w.target.toNat
  | _ => True

/-- The facts of the first `n` operations hold. -/
def RecordFacts (n : Nat) (len : Word) (hbuf : Bytes 80) (w : Latches) : Prop :=
  ∀ k, k ≤ n → recordFact len hbuf w k

section

variable {n : Nat} {len : Word} {hbuf : Bytes 80} {w w' : Latches}

theorem recordFacts_zero : RecordFacts 0 len hbuf w := by
  intro k hk
  obtain rfl : k = 0 := by omega
  trivial

/-- The next operation adds its fact and keeps the earlier ones, which say nothing of the latch it writes. -/
theorem RecordFacts.succ (h : RecordFacts n len hbuf w) (adds : recordFact len hbuf w' (n + 1))
    (keeps : ∀ k, k ≤ n → recordFact len hbuf w k → recordFact len hbuf w' k := by
      intro k hk; interval_cases k <;> simp only [recordFact, imp_self]) : RecordFacts (n + 1) len hbuf w' := by
  intro k hk
  rcases Nat.le_succ_iff.mp hk with hle | rfl
  · exact keeps k hle (h k hle)
  · exact adds

end

/-! ## The invariant, by the kind of phase -/

/-- No error is held and the reserved bits of `CTRL` are 0 (R34, R36, R37). -/
structure State.Quiet (s : State) : Prop where
  ctrlReserved : s.ctrl &&& 1 = s.ctrl
  noError : s.err = ErrorRegs.none
  noTerm : s.term = false

/-- A record has been framed: `LEN` = `SIZE` and `POS` is the next record boundary (R26, R72, R133). -/
def State.RecordFramed (s : State) : Prop := s.len = s.size ∧ 0 ≤ s.sizeInt ∧ s.pos = s.recStart + 8 + s.len.toNat

section

variable {s : State}

/-- Quiet or not is seen in three registers only. -/
theorem State.Quiet.congr {t : State} (h : s.Quiet) (hctrl : t.ctrl = s.ctrl := by rfl)
    (herr : t.err = s.err := by rfl) (hterm : t.term = s.term := by rfl) : t.Quiet :=
  ⟨by rw [hctrl, h.ctrlReserved], herr.trans h.noError, hterm.trans h.noTerm⟩

theorem State.Inv.quiet (h : s.Inv) (hp : s.ph ≠ .fault) : s.Quiet :=
  ⟨h.ctrlReserved, (h.noError hp).1, (h.noError hp).2⟩

/-- The invariant holds the facts of the operations that have been performed on the record. -/
theorem State.Inv.facts (h : s.Inv) : RecordFacts s.progress s.len s.hbuf s.w := by
  intro k hk
  match k with
  | 0 => trivial
  | 1 => exact h.checked hk
  | 2 => exact h.version hk
  | 3 => exact h.prevHash hk
  | 4 => exact h.merkleRoot hk
  | 5 => exact h.timestamp hk
  | 6 => exact h.bits hk
  | 7 => exact h.nonce hk
  | 8 => exact h.payload hk
  | 9 => exact h.unpacked hk
  | 10 => exact h.target hk
  | 11 => exact h.pdifficulty hk
  | 12 => exact h.bdifficulty hk
  | _ + 13 => trivial

/-- The invariant from the clauses about framing and errors, and the facts. -/
theorem inv_of_facts (place : s.slot < max 1 (groupSizeOfCode s.ph.code)) (ctrlReserved : s.ctrl &&& 1 = s.ctrl)
    (noError : s.ph ≠ .fault → s.err = ErrorRegs.none ∧ s.term = false)
    (errorHeld : s.ph = .fault → ∃ c : Cause, c ≠ .divBdif ∧ s.err.code = c.code ∧ s.err.sub = c.sub ∧
      s.term = c.terminal ∧ s.err.record = s.recIdx ∧ errPosFits c s)
    (atStart : s.ph = .idle → s.pos = 0 ∧ s.recIdx = 0 ∧ s.recStart = 0)
    (afterMark : s.ph = .size → s.pos = s.recStart + 4)
    (afterSize : s.ph = .data → s.pos = s.recStart + 8 ∧ 0 ≤ s.sizeInt)
    (framed : s.holdsRecord = true → s.RecordFramed) (facts : RecordFacts s.progress s.len s.hbuf s.w)
    (result : s.ph = .emit → s.res = resultOf s.w s.recStart) : s.Inv where
  place := place
  ctrlReserved := ctrlReserved
  noError := noError
  errorHeld := errorHeld
  atStart := atStart
  afterMark := afterMark
  afterSize := afterSize
  framed := framed
  checked := facts 1
  version := facts 2
  prevHash := facts 3
  merkleRoot := facts 4
  timestamp := facts 5
  bits := facts 6
  nonce := facts 7
  payload := facts 8
  unpacked := facts 9
  target := facts 10
  pdifficulty := facts 11
  bdifficulty := facts 12
  result := result

/-- The invariant in a phase in which no record is held: IDLE, MARK, SIZE, DATA, DONE. -/
theorem inv_without_record (hs : s.slot = 0) (hq : s.Quiet) (hr : s.holdsRecord = false)
    (atStart : s.ph = .idle → s.pos = 0 ∧ s.recIdx = 0 ∧ s.recStart = 0)
    (afterMark : s.ph = .size → s.pos = s.recStart + 4)
    (afterSize : s.ph = .data → s.pos = s.recStart + 8 ∧ 0 ≤ s.sizeInt) : s.Inv := by
  have hterm := hq.noTerm
  have hfault : s.ph ≠ .fault := fun hp => by simp [State.holdsRecord, hp, hterm] at hr
  have hemit : s.ph ≠ .emit := fun hp => by simp [State.holdsRecord, hp] at hr
  have hzero : s.progress = 0 := by cases hp : s.ph <;> simp_all [State.progress, State.holdsRecord]
  refine inv_of_facts (by simp [hs]) hq.ctrlReserved (fun _ => ⟨hq.noError, hterm⟩) (absurd · hfault) atStart afterMark
    afterSize (by simp [hr]) ?_ (absurd · hemit)
  rw [hzero]
  exact recordFacts_zero

/-- The invariant in the phases from HDEC to EMIT. -/
theorem inv_with_record (place : s.slot < max 1 (groupSizeOfCode s.ph.code)) (hq : s.Quiet) (hf : s.ph ≠ .fault)
    (hr : s.holdsRecord = true) (framed : s.RecordFramed) (facts : RecordFacts s.progress s.len s.hbuf s.w)
    (result : s.ph = .emit → s.res = resultOf s.w s.recStart) : s.Inv := by
  have elsewhere {p : Phase} (hp : s.ph = p) (hn : p = .idle ∨ p = .size ∨ p = .data) : False := by
    rcases hn with rfl | rfl | rfl <;> simp [State.holdsRecord, hp] at hr
  exact inv_of_facts place hq.ctrlReserved (fun _ => ⟨hq.noError, hq.noTerm⟩) (absurd · hf)
    (fun hp => (elsewhere hp (by simp)).elim) (fun hp => (elsewhere hp (by simp)).elim)
    (fun hp => (elsewhere hp (by simp)).elim) (fun _ => framed) facts result

/-- The invariant after a trap (R270): the error has its position, and a record is held if the error is the record's. -/
theorem inv_takeError {c : Cause} {errPos : Nat} (hctrl : s.ctrl &&& 1 = s.ctrl) (hc : c ≠ .divBdif)
    (fits : errPosFits c (takeError c errPos s)) (framed : c.terminal = false → s.RecordFramed) :
    (takeError c errPos s).Inv := by
  refine inv_of_facts (by simp) hctrl (by simp) (fun _ => ⟨c, hc, rfl, rfl, rfl, rfl, fits⟩) (by simp) (by simp)
    (by simp) (fun hr => framed ?_) recordFacts_zero (by simp)
  simpa [State.holdsRecord] using hr

/-- The invariant says nothing of STREAM, of the inputs and of what HOST has read. -/
theorem State.Inv.withAgents (h : s.Inv) (unread : List Byte) (eos : Bool) (inputs : List Input)
    (hostData : Option RegValue) (decimals : Option (List Char × List Char)) :
    (s.withAgents unread eos inputs hostData decimals).Inv :=
  inv_of_facts h.place h.ctrlReserved h.noError h.errorHeld h.atStart h.afterMark h.afterSize h.framed h.facts h.result

/-- The invariant does not look at the inputs. -/
theorem State.Inv.popped (h : s.Inv) : s.popped.Inv := h.withAgents _ _ _ _ _

end

/-! ## The operations of CORE -/

section

variable {s t : State}

/-- FR.MARK (R131). -/
theorem inv_exec_frMark (h : s.Inv) (hp : s.ph = .mark) (he : exec .frMark s = .next t) : t.Inv := by
  have hq : s.Quiet := h.quiet (by simp [hp])
  rcases execFrMark_cases he with ⟨-, rfl⟩ | ⟨-, -, -, rfl⟩ | ⟨h4, -, -, rfl⟩ | ⟨-, -, rfl⟩
  · exact inv_without_record rfl hq.congr rfl (by simp) (by simp) (by simp)
  · exact inv_without_record rfl hq.congr rfl (by simp) (by simp) (by simp)
  · refine inv_takeError hq.ctrlReserved (by simp) ?_ (by simp [Cause.terminal, Cause.code])
    simp only [errPosFits, takeError_err, takeError_pos]
    omega
  · exact h

/-- FR.SIZE (R132). -/
theorem inv_exec_frSize (h : s.Inv) (hp : s.ph = .size) (he : exec .frSize s = .next t) : t.Inv := by
  have hq : s.Quiet := h.quiet (by simp [hp])
  have hpos := h.afterMark hp
  rcases execFrSize_cases he with ⟨z, -, -, ⟨hz, rfl⟩ | ⟨-, rfl⟩⟩ | ⟨-, -, rfl⟩ | ⟨-, -, rfl⟩
  · refine inv_without_record rfl hq.congr rfl (by simp) (by simp) fun _ => ⟨?_, hz⟩
    simp only [setPhase_pos, setPhase_recStart]
    omega
  · exact inv_takeError hq.ctrlReserved (by simp) hpos (by simp [Cause.terminal, Cause.code])
  · exact inv_takeError hq.ctrlReserved (by simp) hpos (by simp [Cause.terminal, Cause.code])
  · exact h

/-- FR.DATA (R133). -/
theorem inv_exec_frData (h : s.Inv) (hp : s.ph = .data) (he : exec .frData s = .next t) : t.Inv := by
  have hq : s.Quiet := h.quiet (by simp [hp])
  obtain ⟨hpos, hsize⟩ := h.afterSize hp
  rcases execFrData_cases he with ⟨-, ⟨-, rfl⟩ | ⟨-, -, rfl⟩ | ⟨-, -, rfl⟩⟩
  · refine inv_with_record (by simp) hq.congr (by simp) rfl ⟨rfl, hsize, ?_⟩ recordFacts_zero (by simp)
    have hlen := size_toNat (Int.not_lt.mpr hsize)
    simp only [setPhase_pos, setPhase_recStart, setPhase_len]
    omega
  · exact inv_takeError hq.ctrlReserved (by simp) hpos (by simp [Cause.terminal, Cause.code])
  · exact h

/-- The phases in which CORE decodes a record it has framed (R23). -/
def Phase.isDecoding : Phase → Bool
  | .hdec | .tgt | .pdif | .bdif => true
  | .idle | .mark | .size | .data | .emit | .fault | .done => false

theorem holdsRecord_of_isDecoding (hd : s.ph.isDecoding = true) : s.holdsRecord = true := by
  cases hp : s.ph <;> simp_all [Phase.isDecoding, State.holdsRecord]

theorem ne_of_isDecoding (hd : s.ph.isDecoding = true) : s.ph ≠ .fault ∧ s.ph ≠ .emit := by
  constructor <;> intro hp <;> simp [hp, Phase.isDecoding] at hd

/-- An operation of HDEC or DIFF that writes latches and goes on to the next place makes its fact true. -/
theorem inv_decode_next {n slot : Nat} {p : Phase} {w : Latches} (h : s.Inv) (hd : s.ph.isDecoding = true)
    (hn : s.progress = n) (hd' : p.isDecoding = true) (place : slot < groupSizeOfCode p.code)
    (hnext : State.progress { s with ph := p, slot := slot, w := w } = n + 1)
    (facts : RecordFacts n s.len s.hbuf s.w → RecordFacts (n + 1) s.len s.hbuf w) :
    State.Inv { s with ph := p, slot := slot, w := w } := by
  have hq := h.quiet (ne_of_isDecoding hd).1
  obtain ⟨hfault, hemit⟩ := ne_of_isDecoding (s := { s with ph := p, slot := slot, w := w }) hd'
  refine inv_with_record (lt_of_lt_of_le place (le_max_right _ _)) hq.congr hfault (holdsRecord_of_isDecoding hd')
    (h.framed (holdsRecord_of_isDecoding hd)) ?_ (absurd · hemit)
  rw [hnext]
  exact facts (hn ▸ h.facts)

/-- A record-scoped error of HDEC or DIFF (R260, R266). -/
theorem inv_decode_error {c : Cause} {errPos : Nat} (h : s.Inv) (hd : s.ph.isDecoding = true) (hc : c ≠ .divBdif)
    (fits : errPosFits c (takeError c errPos s)) : (takeError c errPos s).Inv :=
  inv_takeError h.ctrlReserved hc fits fun _ => h.framed (holdsRecord_of_isDecoding hd)

/-- An operation of HDEC that goes on to the next one (R160 to R166). -/
theorem inv_hdec_next {n : Nat} {w : Latches} (h : s.Inv) (hp : s.ph = .hdec) (hs : s.slot = n) (hn : n < 7)
    (facts : RecordFacts n s.len s.hbuf s.w → RecordFacts (n + 1) s.len s.hbuf w) :
    (nextPlace { s with w := w }).Inv := by
  have hplace : s.slot + 1 < groupSizeOfCode s.ph.code := by
    rw [hp, hs]
    exact Nat.succ_lt_succ hn
  exact inv_decode_next (s := s) h (hp ▸ rfl) (by simp [State.progress, hp, hs]) (hp ▸ rfl) hplace
    (by simp [State.progress, hp, hs]) facts

/-- HD.CHK (R160). -/
theorem inv_exec_hdChk (h : s.Inv) (hp : s.ph = .hdec) (hs : s.slot = 0) (he : exec .hdChk s = .next t) : t.Inv := by
  rcases execHdChk_cases he with ⟨h80, rfl⟩ | ⟨-, rfl⟩
  · exact inv_hdec_next h hp hs (by decide) (RecordFacts.succ · h80)
  · exact inv_decode_error h (hp ▸ rfl) (by simp) rfl

/-- HD.PAY (R167). -/
theorem inv_exec_hdPay (h : s.Inv) (hp : s.ph = .hdec) (hs : s.slot = 7) (he : exec .hdPay s = .next t) : t.Inv := by
  have hn : s.progress = 7 := by simp [State.progress, hp, hs]
  cases he
  exact inv_decode_next (s := s) h (hp ▸ rfl) hn rfl (by decide) rfl
    (RecordFacts.succ · (payloadLength_toNat _ (h.checked (by omega))))

/-- DF.UNPK (R190). -/
theorem inv_exec_dfUnpk (h : s.Inv) (hp : s.ph = .tgt) (hs : s.slot = 0) (he : exec .dfUnpk s = .next t) : t.Inv := by
  have hn : s.progress = 8 := by simp [State.progress, hp, hs]
  have hplace : s.slot + 1 < groupSizeOfCode s.ph.code := by
    rw [hp, hs]
    decide
  cases he
  exact inv_decode_next (s := s) h (hp ▸ rfl) hn (hp ▸ rfl) hplace (by simp [State.progress, hp, hs])
    (RecordFacts.succ · ⟨rfl, rfl⟩)

/-- DF.TGT (R191). -/
theorem inv_exec_dfTgt (h : s.Inv) (hp : s.ph = .tgt) (hs : s.slot = 1) (he : exec .dfTgt s = .next t) : t.Inv := by
  have hd : s.ph.isDecoding = true := hp ▸ rfl
  have hn : s.progress = 9 := by simp [State.progress, hp, hs]
  rcases execDfTgt_cases he with ⟨hlow, hhigh, v, hv, rfl⟩ | ⟨-, rfl⟩ | ⟨-, rfl⟩
  · exact inv_decode_next (s := s) h hd hn rfl (by decide) rfl (RecordFacts.succ · ⟨hlow, hhigh, hv⟩)
  · exact inv_decode_error h hd (by simp) rfl
  · exact inv_decode_error h hd (by simp) rfl

/-- DF.PDIF (R196). -/
theorem inv_exec_dfPdif (h : s.Inv) (hp : s.ph = .pdif) (he : exec .dfPdif s = .next t) : t.Inv := by
  have hd : s.ph.isDecoding = true := hp ▸ rfl
  have hn : s.progress = 10 := by simp [State.progress, hp]
  rcases execDfPdif_cases he with ⟨-, q, r, hq, hlt, rfl⟩ | ⟨-, rfl⟩
  · rw [genesisTarget_toNat] at hq
    exact inv_decode_next (s := s) h hd hn rfl (by decide) rfl (RecordFacts.succ · ⟨hq, hlt⟩)
  · exact inv_decode_error h hd (by simp) rfl

/-- In BDIF the target is not zero, because DF.PDIF has divided by it (R196, U16). -/
theorem State.Inv.target_ne_zero (h : s.Inv) (hp : s.ph = .bdif) : s.w.target.toNat ≠ 0 := by
  obtain ⟨-, hlt⟩ := h.pdifficulty (by simp [State.progress, hp])
  omega

/-- DF.BDIF with the commit of the result (R197, R230). It does not raise its error (U16). -/
theorem inv_exec_dfBdif (h : s.Inv) (hp : s.ph = .bdif) (he : exec .dfBdif s = .next t) : t.Inv := by
  have hd : s.ph.isDecoding = true := hp ▸ rfl
  have hn : s.progress = 11 := by simp [State.progress, hp]
  have hquiet : s.Quiet := h.quiet (ne_of_isDecoding hd).1
  rcases execDfBdif_cases he with ⟨-, q, r, hq, hlt, rfl⟩ | ⟨hzero, -⟩
  · rw [genesisTargetTruncated_toNat] at hq
    have facts : RecordFacts 12 s.len s.hbuf { s.w with bq := q, br := r } :=
      RecordFacts.succ (n := 11) (w := s.w) (hn ▸ h.facts) ⟨hq, hlt⟩
    exact inv_with_record (by simp) hquiet.congr (by simp) rfl (h.framed (holdsRecord_of_isDecoding hd)) facts
      fun _ => rfl
  · exact absurd hzero (h.target_ne_zero hp)

/-- An operation that CORE's phase and place select keeps the invariant. -/
theorem inv_exec_of_selected {i : Instr} (h : s.Inv) (hsel : encode i = .sequencer s.ph.code s.slot)
    (he : exec i s = .next t) : t.Inv := by
  have hs {c : BitVec 4} {n : Nat} (hc : encode i = .sequencer c n) : s.slot = n := slot_of_selected hc hsel
  have hp (p : Phase) {n : Nat} (hc : encode i = .sequencer p.code n) : s.ph = p := phase_of_selected hc hsel
  cases i with
  | frMark => exact inv_exec_frMark h (hp .mark rfl) he
  | frSize => exact inv_exec_frSize h (hp .size rfl) he
  | frData => exact inv_exec_frData h (hp .data rfl) he
  | hdChk => exact inv_exec_hdChk h (hp .hdec rfl) (hs rfl) he
  | hdPay => exact inv_exec_hdPay h (hp .hdec rfl) (hs rfl) he
  | dfUnpk => exact inv_exec_dfUnpk h (hp .tgt rfl) (hs rfl) he
  | dfTgt => exact inv_exec_dfTgt h (hp .tgt rfl) (hs rfl) he
  | dfPdif => exact inv_exec_dfPdif h (hp .pdif rfl) he
  | dfBdif => exact inv_exec_dfBdif h (hp .bdif rfl) he
  | hdVer | hdPrev | hdMrkl | hdTime | hdBits | hdNonce =>
    cases he
    exact inv_hdec_next h (hp .hdec rfl) (hs rfl) (by decide) (RecordFacts.succ · rfl)
  | frNext | dfHex | dfDec | outEmit | cmdStart | cmdNext | cmdAbort => cases hsel

/-! ## Commands, `CTRL` and reset -/

/-- A state in IDLE with the positions 0 and no error (R42). -/
theorem inv_of_idle (hp : s.ph = .idle) (hs : s.slot = 0) (hq : s.Quiet)
    (hzero : s.pos = 0 ∧ s.recIdx = 0 ∧ s.recStart = 0) : s.Inv :=
  inv_without_record hs hq (by simp [State.holdsRecord, hp]) (fun _ => hzero) (by simp [hp]) (by simp [hp])

/-- Return to the reset values (R235, R300). -/
theorem inv_restoreReset (h : s.ctrl &&& 1 = s.ctrl) : (restoreReset s).Inv :=
  inv_of_idle rfl rfl ⟨h, rfl, rfl⟩ ⟨rfl, rfl, rfl⟩

theorem inv_applyRst (s : State) : (applyRst s).Inv :=
  inv_of_idle rfl rfl ⟨by simp, rfl, rfl⟩ ⟨rfl, rfl, rfl⟩

/-- CMD.NEXT is accepted where no terminal error is held (R234, R272). -/
theorem State.Inv.noTerm_of_acceptsNext (h : s.Inv) (ha : s.acceptsNext = true) : s.term = false := by
  by_cases hp : s.ph = .fault
  · simpa [State.acceptsNext, hp] using ha
  · exact (h.noError hp).2

/-- The end of a record (R134, R272). -/
theorem inv_disposeRecord (h : s.Inv) (hterm : s.term = false) : (disposeRecord s).Inv := by
  refine inv_without_record rfl ⟨h.ctrlReserved, rfl, hterm⟩ ?_ ?_ ?_ ?_ <;>
    cases hm : s.single <;> simp [State.holdsRecord, hm]

/-- A command keeps the invariant (R233 to R235). -/
theorem inv_exec_command {i : Instr} (h : s.Inv) (hi : i = .cmdStart ∨ i = .cmdNext ∨ i = .cmdAbort)
    (he : exec i s = .next t) : t.Inv := by
  rcases hi with rfl | rfl | rfl
  · rcases execCmdStart_cases he with ⟨hp, rfl⟩ | ⟨-, rfl⟩
    · have hq : s.Quiet := h.quiet (by simp [hp])
      exact inv_without_record rfl hq.congr rfl (by simp) (by simp) (by simp)
    · exact h
  · rcases execCmdNext_cases he with ⟨ha, rfl⟩ | ⟨-, rfl⟩
    · exact inv_disposeRecord h (h.noTerm_of_acceptsNext ha)
    · exact h
  · rcases execCmdAbort_cases he with ⟨-, rfl⟩ | ⟨-, rfl⟩
    · exact inv_restoreReset h.ctrlReserved
    · exact h

/-- A write of `CTRL` in IDLE sets bit 0 only (R34). -/
theorem inv_write_ctrl (h : s.Inv) (hp : s.ph = .idle) (hs : s.slot = 0) (v : Word) :
    State.Inv { s with ctrl := v &&& 1 } := by
  have hq : s.Quiet := h.quiet (by simp [hp])
  have hbit : v &&& 1 &&& 1 = v &&& 1 := by rw [BitVec.and_assoc, BitVec.and_self]
  exact inv_of_idle hp hs ⟨hbit, hq.noError, hq.noTerm⟩ (h.atStart hp)

/-- In IDLE the place is the first (R23). -/
theorem State.Inv.slot_of_idle (h : s.Inv) (hp : s.ph = .idle) : s.slot = 0 := by
  have hplace := h.place
  simpa [hp, Phase.code, groupSizeOfCode] using hplace

end

/-- Settles O53: by what a step can do to CORE's registers. -/
theorem stepKeepsInvariant : Obligations.StepKeepsInvariant := by
  intro s t h hstep
  rcases step_core_cases hstep with ⟨_, _, _, _, _, rfl⟩ | ⟨i, hsel, he⟩ | ⟨i, hi, he⟩ | ⟨v, _, -, hp, rfl⟩ |
    ⟨_, -, rfl⟩
  · exact h.withAgents _ _ _ _ _
  · exact inv_exec_of_selected h.popped hsel he
  · exact inv_exec_command h.popped hi he
  · exact inv_write_ctrl h.popped hp (h.slot_of_idle hp) v
  · exact inv_applyRst _

/-- Settles O52: the reset state is in IDLE with no error and the positions 0. -/
theorem invariantHoldsAtReset : Obligations.InvariantHoldsAtReset :=
  inv_of_idle rfl rfl ⟨rfl, rfl, rfl⟩ ⟨rfl, rfl, rfl⟩

end Sys2Proof.Machine

end

/-! # Selectors, registers and flags -/

section

namespace Sys2Proof.Machine

/-! ## Selection -/

/-- Settles O4: the round trip of each operation, and the selectors that decode are the operations' own. -/
theorem selectorsAndOperationsMatch : Obligations.SelectorsAndOperationsMatch := by
  refine ⟨fun i => (selectionRoundTrip i).2, fun x hx => ?_⟩
  obtain ⟨i, hi⟩ := exists_decode_of_wellFormed hx
  exact ⟨i, hi, encode_of_decode hi⟩

/-- Settles O2. -/
theorem sampleWordsDecode : Obligations.SampleWordsDecode := by
  unfold Obligations.SampleWordsDecode
  decide

/-! ## The register file -/

section

variable {s : State} {reg : BitVec 6}

/-- A result register answers while RDY = 1 (R32). -/
theorem readReg_of_rdy (hlow : 16 ≤ reg.toNat) (hhigh : reg.toNat ≤ 30) (hr : s.rdy = true) :
    readReg s reg = .ok (readResult s.res reg.toNat) :=
  (if_pos ⟨hlow, hhigh⟩).trans (if_pos hr)

/-- A result register is refused while RDY = 0 (R32). -/
theorem readReg_of_not_rdy (hlow : 16 ≤ reg.toNat) (hhigh : reg.toNat ≤ 30) (hr : s.rdy = false) :
    readReg s reg = .error (.resultNotReady reg) :=
  (if_pos ⟨hlow, hhigh⟩).trans (if_neg (Bool.eq_false_iff.mp hr))

/-- A read has a value where it is not of a result register that is not ready (R237). -/
theorem exists_readReg (h : reg.toNat < 16 ∨ 30 < reg.toNat ∨ s.rdy = true) : ∃ v, readReg s reg = .ok v := by
  rcases readReg_cases s reg with ⟨-, -, -, hv⟩ | ⟨hlow, hhigh, hp, -⟩ | ⟨-, hv⟩
  · exact ⟨_, hv⟩
  · rcases h with h | h | h
    · omega
    · omega
    · exact absurd (by simpa [State.rdy] using h) hp
  · exact hv

/-- `CTRL` reads as its bit 0 (R34). -/
theorem readReg_ctrl (s : State) : readReg s 0 = .ok (.uint 32 (s.ctrl.toNat % 2)) := by
  have hbit : (s.ctrl &&& 1).toNat = s.ctrl.toNat % 2 := by
    rw [BitVec.toNat_and, ← Nat.and_one_is_mod]
    rfl
  rw [← hbit]
  rfl

theorem readReg_genesisTarget (s : State) : readReg s 32 = .ok (.uint 256 (2 ^ 224 - 1)) := by
  rw [← genesisTarget_toNat]
  rfl

theorem readReg_genesisTargetTruncated (s : State) : readReg s 33 = .ok (.uint 256 (65535 * 2 ^ 208)) := by
  rw [← genesisTargetTruncated_toNat]
  rfl

/-- `CMD` and the numbers that name no register read 0 (R35, D3). -/
theorem readReg_unnamed
    (h : reg.toNat = 1 ∨ (13 ≤ reg.toNat ∧ reg.toNat ≤ 15) ∨ reg.toNat = 31 ∨ 34 ≤ reg.toNat) :
    readReg s reg = .ok (.uint 32 0) := by
  rw [readReg, if_neg (by omega)]
  split <;> first | omega | rfl

end

/-- Settles O38: registers 16 to 30, and each of their numbers. -/
theorem resultReadsNeedReady : Obligations.ResultReadsNeedReady := by
  refine ⟨fun s reg hlow hhigh => ⟨readReg_of_rdy hlow hhigh, readReg_of_not_rdy hlow hhigh⟩, fun s hp => ?_⟩
  have hr : s.rdy = true := by simp [State.rdy, hp]
  have answers (reg : BitVec 6) (hlow : 16 ≤ reg.toNat) (hhigh : reg.toNat ≤ 30) := readReg_of_rdy hlow hhigh hr
  exact ⟨answers 16 (by decide) (by decide), answers 17 (by decide) (by decide), answers 18 (by decide) (by decide),
    answers 19 (by decide) (by decide), answers 20 (by decide) (by decide), answers 21 (by decide) (by decide),
    answers 22 (by decide) (by decide), answers 23 (by decide) (by decide), answers 24 (by decide) (by decide),
    answers 25 (by decide) (by decide), answers 26 (by decide) (by decide), answers 27 (by decide) (by decide),
    answers 28 (by decide) (by decide), answers 29 (by decide) (by decide), answers 30 (by decide) (by decide)⟩

/-- Settles O39: a read that has a value is kept in `hostData`, and each number reads its register. -/
theorem hostReadsHaveNoEffectOnCore : Obligations.HostReadsHaveNoEffectOnCore := by
  refine ⟨fun s reg rest hin => ⟨fun v => step_of_hostRead hin, fun h => exists_readReg ?_⟩, fun s => ?_,
    fun s reg => readReg_unnamed⟩
  · exact h.imp id .inl
  · exact ⟨readReg_ctrl s, rfl, rfl, rfl, rfl, rfl, rfl, rfl, rfl, rfl, rfl, rfl, readReg_genesisTarget s,
      readReg_genesisTargetTruncated s⟩

/-- Settles O40: the constants' values, and that HOST's writes reach `CTRL` and `CMD` only. -/
theorem constantsAreReadOnly : Obligations.ConstantsAreReadOnly := by
  refine fun s => ⟨readReg_genesisTarget s, readReg_genesisTargetTruncated s, fun reg v rest hreg hin => ?_⟩
  have hctrl : reg ≠ 0 := by rintro rfl; simp at hreg
  have hcmd : reg ≠ 1 := by rintro rfl; simp at hreg
  rw [step_of_hostWrite hin hcmd, writeReg_of_ne_ctrl hctrl]

/-- Settles O37: HOST's write by the phase, and the steps that write `CTRL`. -/
theorem ctrlChangesOnlyByHostInIdle : Obligations.CtrlChangesOnlyByHostInIdle := by
  refine ⟨fun s v rest hin => ⟨fun hp => ?idle, fun hp => ?elsewhere⟩, fun s t h hne => ?step, readReg_ctrl⟩
  case idle => exact (step_of_hostWrite hin (by decide)).trans (congrArg _ (writeReg_ctrl_of_idle hp))
  case elsewhere => exact (step_of_hostWrite hin (by decide)).trans (congrArg _ (writeReg_of_ne_idle hp))
  case step =>
    rcases step_core_cases h with ⟨_, _, _, _, _, rfl⟩ | ⟨i, -, he⟩ | ⟨i, -, he⟩ | ⟨v, rest, hin, hp, -⟩ |
      ⟨rest, hin, rfl⟩
    · exact absurd rfl hne
    · exact absurd (exec_ctrl he) hne
    · exact absurd (exec_ctrl he) hne
    · exact .inl ⟨v, rest, hin, hp⟩
    · exact .inr ⟨rest, hin, rfl⟩

/-- Settles O35: a run phase accepts no write to `CTRL` and no command. -/
theorem runPhasesIgnoreHostWrites : Obligations.RunPhasesIgnoreHostWrites := by
  intro s reg v rest hr hin
  by_cases hcmd : reg = 1
  · subst hcmd
    rcases hd : decodeCommand v with e | i
    · exact step_of_no_command hin (by simp [hd])
    · rw [step_of_command hin hd]
      exact exec_command_of_isRun hr (decodeCommand_ok hd)
  · rw [step_of_hostWrite hin hcmd, writeReg_of_ne_idle]
    intro hp
    simp [show s.ph = .idle from hp, Phase.isRun] at hr

/-! ## `STATUS` and reset -/

/-- `STATUS` from the phase and `TERM` (R36). -/
def statusWord (p : Phase) (term : Bool) : Word := State.status { State.reset with ph := p, term := term }

/-- `STATUS` depends on the phase and `TERM` only (R36). -/
theorem status_eq_statusWord (s : State) : s.status = statusWord s.ph s.term := rfl

/-- Settles O36: eleven phases and `TERM`, evaluated. -/
theorem statusBitsFollowPhase : Obligations.StatusBitsFollowPhase := by
  intro s
  rw [status_eq_statusWord]
  cases hp : s.ph <;> cases hterm : s.term <;> simp only [State.attn, State.rdy, State.errFlag, State.doneFlag, hp] <;>
    decide

/-- In IDLE without `TERM` the whole of `STATUS` is 0, and `attn` too (R36, R280). -/
theorem status_attn_of_idle {s : State} (hp : s.ph = .idle) (hterm : s.term = false) :
    s.status = 0 ∧ s.attn = false := by
  rw [status_eq_statusWord, hp, hterm]
  exact ⟨by decide, by simp [State.attn, State.rdy, State.errFlag, State.doneFlag, hp]⟩

/-- Settles O41. -/
theorem resetStateHasSpecifiedValues : Obligations.ResetStateHasSpecifiedValues := by
  obtain ⟨hstatus, hattn⟩ := status_attn_of_idle (s := State.reset) rfl rfl
  exact ⟨rfl, rfl, rfl, rfl, rfl, hstatus, rfl, hattn⟩

/-- Settles O42: `rst` is the return to the reset values with `CTRL`. -/
theorem rstRestoresResetValuesInAnyPhase : Obligations.RstRestoresResetValuesInAnyPhase := by
  intro s rest hin
  obtain ⟨hstatus, hattn⟩ := status_attn_of_idle (s := applyRst { s with inputs := rest }) rfl rfl
  exact ⟨_, step_of_settled hin rfl, rfl, rfl, rfl, rfl, rfl, hstatus, rfl, hattn, rfl, rfl, rfl⟩

/-- Settles O33: where CMD.ABORT has an effect it is the return to the reset values. -/
theorem cmdAbortRestoresResetValuesKeepsCtrl : Obligations.CmdAbortRestoresResetValuesKeepsCtrl := by
  refine ⟨fun s hp => ?accepted, fun s hp => ?idle, fun s hr => exec_command_of_isRun hr (by simp)⟩
  case accepted =>
    have ha : s.abortTakesEffect = true := by simpa [State.abortTakesEffect, or_assoc] using hp
    obtain ⟨hstatus, -⟩ := status_attn_of_idle (s := restoreReset s) rfl rfl
    exact ⟨_, if_pos ha, rfl, rfl, rfl, rfl, rfl, rfl, hstatus, rfl, rfl, rfl, rfl, rfl, rfl⟩
  case idle => exact if_neg (by simp [State.abortTakesEffect, hp])

/-- Settles O28: the texts are those of `renderRatios`. -/
theorem dfDecRendersHeldRatios : Obligations.DfDecRendersHeldRatios :=
  ⟨fun s hp => ⟨_, _, rfl, rfl, if_pos (by simp [State.rdy, hp])⟩, fun s hp => if_neg (by simp [State.rdy, hp])⟩

end Sys2Proof.Machine

end

/-! # Frames and order of the steps -/

section

namespace Sys2Proof.Machine

/-! ## The stream -/

/-- `t` has `k` unread bytes of `s` behind it, which `POS` counts, or counts the same bytes from 0 (R21, R73). -/
structure Consumes (k : Nat) (s t : State) : Prop where
  unread : t.unread = s.unread.drop k
  inside : k ≤ s.unread.length
  counted : t.pos = s.pos + k ∨ (k = 0 ∧ t.pos = 0 ∧ (t.ph = .idle ∨ (s.ph = .idle ∧ t.ph = .mark)))

section

variable {s t : State} {i : Instr}

theorem consumes_zero (hunread : t.unread = s.unread) (hpos : t.pos = s.pos) : Consumes 0 s t :=
  ⟨hunread, Nat.zero_le _, .inl hpos⟩

/-- An operation consumes some of the unread bytes and leaves the end indication (R21, R73). -/
theorem exec_stream (h : exec i s = .next t) : (∃ k, Consumes k s t) ∧ t.eos = s.eos := by
  cases effect_of_exec h with
  | framed _ inside => exact ⟨⟨_, rfl, inside, .inl rfl⟩, rfl⟩
  | trapped _ inside => exact ⟨⟨_, rfl, inside, .inl rfl⟩, rfl⟩
  | started idle => exact ⟨⟨0, rfl, Nat.zero_le _, .inr ⟨rfl, rfl, .inr ⟨idle, rfl⟩⟩⟩, rfl⟩
  | aborted => exact ⟨⟨0, rfl, Nat.zero_le _, .inr ⟨rfl, rfl, .inl rfl⟩⟩, rfl⟩
  | formatted => exact ⟨⟨0, consumes_zero (writeTargetHex_unread s) (writeTargetHex_pos s)⟩, writeTargetHex_eos s⟩
  | unchanged | latched | committed | rendered | disposed => exact ⟨⟨0, consumes_zero rfl rfl⟩, rfl⟩

/-- A step that is given no bytes consumes some of the unread ones (R21, R73). -/
theorem step_stream (h : step s = .next t) (hbind : ∀ b e rest, s.inputs ≠ .bind b e :: rest)
    (hdeliver : ∀ b rest, s.inputs ≠ .deliver b :: rest) :
    (∃ k, Consumes k s t) ∧ (t.eos = s.eos ∨ ∃ rest, s.inputs = .endOfStream :: rest) := by
  have performed {i : Instr} (he : exec i s.popped = .next t) : (∃ k, Consumes k s t) ∧ t.eos = s.eos := by
    obtain ⟨⟨k, hunread, inside, counted⟩, heos⟩ := exec_stream he
    exact ⟨⟨k, hunread, inside, counted⟩, heos⟩
  rcases step_next_cases h with rfl | ⟨i, -, he⟩ | ⟨_, i, _, -, -, he⟩ | ⟨_, _, -, -, rfl⟩ | ⟨_, _, _, -, -, rfl⟩ |
    ⟨_, -, he⟩ | ⟨_, -, rfl⟩ | ⟨b, e, rest, hin, -⟩ | ⟨b, rest, hin, -⟩ | ⟨rest, hin, rfl⟩
  · exact ⟨⟨0, consumes_zero rfl rfl⟩, .inl rfl⟩
  · exact (performed he).imp id .inl
  · exact (performed he).imp id .inl
  · exact ⟨⟨0, consumes_zero rfl rfl⟩, .inl rfl⟩
  · exact ⟨⟨0, consumes_zero rfl rfl⟩, .inl rfl⟩
  · exact (performed he).imp id .inl
  · exact ⟨⟨0, rfl, Nat.zero_le _, .inr ⟨rfl, rfl, .inl rfl⟩⟩, .inl rfl⟩
  · exact absurd hin (hbind b e rest)
  · exact absurd hin (hdeliver b rest)
  · exact ⟨⟨0, consumes_zero rfl rfl⟩, .inr ⟨rest, hin⟩⟩

end

/-- Settles O45: the first clause is `step_stream`, the others are the environment's inputs. -/
theorem positionCountsConsumedBytes : Obligations.PositionCountsConsumedBytes := by
  refine ⟨fun s t h hbind hdeliver => ?consume, fun s b rest hin heos => ?deliver,
    fun s rest hin => step_of_settled hin rfl, fun s b e rest hin hallowed => ?bind⟩
  case consume =>
    obtain ⟨⟨k, hunread, inside, counted⟩, heos⟩ := step_stream h hbind hdeliver
    exact ⟨k, hunread, inside, counted, heos⟩
  case deliver => exact step_of_settled hin (congrArg Fetched.settled (if_neg (by simp [heos])))
  case bind =>
    have hfree : (s.running && !s.unbound) = false :=
      (running_unbound_eq_false s).mpr (by simpa only [or_assoc] using hallowed)
    exact step_of_settled hin (congrArg Fetched.settled (if_neg (Bool.eq_false_iff.mp hfree)))

/-! ## Frames -/

/-- Settles O46: the other effects leave the result registers. -/
theorem resultsChangeOnlyByEmission : Obligations.ResultsChangeOnlyByEmission := by
  intro i s t h hres
  cases effect_of_exec h with
  | committed emitting => exact emitting.imp id .inl
  | formatted => simp
  | aborted => simp
  | unchanged | framed | trapped | latched | rendered | disposed | started => exact absurd rfl hres

/-- Settles O49: only the disposal of a record and the return to the reset values write `ERR_*` outside a trap. -/
theorem errorRegistersChangeOnlyByTrapAndReturn : Obligations.ErrorRegistersChangeOnlyByTrapAndReturn := by
  intro i s t h
  refine ⟨exec_ctrl h, fun hp => ?_⟩
  cases effect_of_exec h with
  | trapped => exact absurd rfl hp
  | disposed disposing => exact ⟨.inr rfl, .inl rfl, fun _ => disposing.imp id .inl⟩
  | aborted => exact ⟨.inr rfl, .inr rfl, fun _ => .inr (.inr rfl)⟩
  | formatted => exact ⟨.inl (writeTargetHex_err s), .inl (writeTargetHex_term s), absurd (writeTargetHex_err s)⟩
  | unchanged | framed | latched | committed | rendered | started => exact ⟨.inl rfl, .inl rfl, absurd rfl⟩

/-- In EMIT a command leaves the phase or does nothing (R236). -/
theorem exec_command_of_emit {s t : State} {i : Instr} (hp : s.ph = .emit)
    (hi : i = .cmdStart ∨ i = .cmdNext ∨ i = .cmdAbort) (h : exec i s = .next t) (ht : t.ph = .emit) : t = s := by
  rcases hi with rfl | rfl | rfl
  · rcases execCmdStart_cases h with ⟨hidle, -⟩ | ⟨-, rfl⟩
    · simp [hp] at hidle
    · rfl
  · rcases execCmdNext_cases h with ⟨-, rfl⟩ | ⟨-, rfl⟩
    · cases hm : s.single <;> simp [hm] at ht
    · rfl
  · rcases execCmdAbort_cases h with ⟨-, rfl⟩ | ⟨-, rfl⟩
    · simp at ht
    · rfl

/-- In a wait state no operation is CORE's next one (R23, R240). -/
theorem not_selected_of_wait {s : State} {i : Instr} (hp : s.ph.isRun = false) :
    encode i ≠ .sequencer s.ph.code s.slot := by
  intro hsel
  have hd : decode (.sequencer s.ph.code s.slot) = .ok i := hsel ▸ (selectionRoundTrip i).2.2
  rw [isRun_of_decodePhase hd] at hp
  cases hp

/-- Settles O47: a step that stays in EMIT leaves CORE's registers. -/
theorem resultIsImmutableWhileHeld : Obligations.ResultIsImmutableWhileHeld := by
  intro s t h hp ht
  rcases step_core_cases h with ⟨_, _, _, _, _, rfl⟩ | ⟨i, hsel, -⟩ | ⟨i, hi, he⟩ | ⟨_, _, -, hidle, -⟩ | ⟨_, -, rfl⟩
  · exact ⟨rfl, rfl, rfl, rfl, rfl, rfl, rfl⟩
  · exact absurd hsel (not_selected_of_wait (by simp [hp, Phase.isRun]))
  · obtain rfl := exec_command_of_emit (s := s.popped) hp hi he ht
    exact ⟨rfl, rfl, rfl, rfl, rfl, rfl, rfl⟩
  · simp [hp] at hidle
  · simp at ht

/-! ## The transition table -/

section

variable {s t : State} {i : Instr}

/-- The operations that CORE's phase and place select move `PH` as R240's table says. The table has no row from BDIF to
FAULT, so this needs the invariant. -/
theorem transition_of_selected (hI : s.Inv) (hsel : encode i = .sequencer s.ph.code s.slot) (h : exec i s = .next t) :
    t.ph = s.ph ∨ allowedTransition s.single s.term s.ph t.ph = true := by
  have hp (p : Phase) {n : Nat} (hc : encode i = .sequencer p.code n) : s.ph = p := phase_of_selected hc hsel
  cases i with
  | frMark =>
    rw [hp .mark rfl]
    rcases execFrMark_cases h with ⟨-, rfl⟩ | ⟨-, -, hm, rfl⟩ | ⟨-, -, -, rfl⟩ | ⟨-, -, rfl⟩
    · exact .inr rfl
    · exact .inr (by simp [allowedTransition, hm])
    · exact .inr rfl
    · exact .inl (hp .mark rfl)
  | frSize =>
    rw [hp .size rfl]
    rcases execFrSize_cases h with ⟨_, -, -, ⟨-, rfl⟩ | ⟨-, rfl⟩⟩ | ⟨-, -, rfl⟩ | ⟨-, -, rfl⟩
    · exact .inr rfl
    · exact .inr rfl
    · exact .inr rfl
    · exact .inl (hp .size rfl)
  | frData =>
    rw [hp .data rfl]
    rcases execFrData_cases h with ⟨-, ⟨-, rfl⟩ | ⟨-, -, rfl⟩ | ⟨-, -, rfl⟩⟩
    · exact .inr rfl
    · exact .inr rfl
    · exact .inl (hp .data rfl)
  | hdChk =>
    rw [hp .hdec rfl]
    rcases execHdChk_cases h with ⟨-, rfl⟩ | ⟨-, rfl⟩
    · exact .inl (hp .hdec rfl)
    · exact .inr rfl
  | hdPay =>
    rw [hp .hdec rfl]
    cases h
    exact .inr rfl
  | dfTgt =>
    rw [hp .tgt rfl]
    rcases execDfTgt_cases h with ⟨-, -, _, -, rfl⟩ | ⟨-, rfl⟩ | ⟨-, rfl⟩ <;> exact .inr rfl
  | dfPdif =>
    rw [hp .pdif rfl]
    rcases execDfPdif_cases h with ⟨-, _, _, -, -, rfl⟩ | ⟨-, rfl⟩ <;> exact .inr rfl
  | dfBdif =>
    rcases execDfBdif_cases h with ⟨-, _, _, -, -, rfl⟩ | ⟨hzero, -⟩
    · exact .inr (by rw [hp .bdif rfl]; rfl)
    · exact absurd hzero (hI.target_ne_zero (hp .bdif rfl))
  | hdVer | hdPrev | hdMrkl | hdTime | hdBits | hdNonce | dfUnpk =>
    cases h
    exact .inl rfl
  | frNext | dfHex | dfDec | outEmit | cmdStart | cmdNext | cmdAbort => cases hsel

/-- A command moves `PH` as R240's table says. -/
theorem transition_of_command (hi : i = .cmdStart ∨ i = .cmdNext ∨ i = .cmdAbort) (h : exec i s = .next t) :
    t.ph = s.ph ∨ allowedTransition s.single s.term s.ph t.ph = true := by
  rcases hi with rfl | rfl | rfl
  · rcases execCmdStart_cases h with ⟨hp, rfl⟩ | ⟨-, rfl⟩
    · exact .inr (by rw [hp]; rfl)
    · exact .inl rfl
  · rcases execCmdNext_cases h with ⟨ha, rfl⟩ | ⟨-, rfl⟩
    · obtain hp | ⟨hp, hterm⟩ : s.ph = .emit ∨ s.ph = .fault ∧ s.term = false := by simpa [State.acceptsNext] using ha
      · exact .inr (by cases hm : s.single <;> simp [hp, hm, allowedTransition])
      · exact .inr (by cases hm : s.single <;> simp [hp, hm, hterm, allowedTransition])
    · exact .inl rfl
  · rcases execCmdAbort_cases h with ⟨ha, rfl⟩ | ⟨-, rfl⟩
    · obtain (hp | hp) | hp : (s.ph = .emit ∨ s.ph = .fault) ∨ s.ph = .done := by
        simpa [State.abortTakesEffect] using ha
      all_goals exact .inr (by rw [hp]; rfl)
    · exact .inl rfl

end

/-- Settles O56: by what a step can do to CORE's registers. -/
theorem phaseTransitionsAreTheTables : Obligations.PhaseTransitionsAreTheTables := by
  intro s t hI h
  rcases step_core_cases h with ⟨_, _, _, _, _, rfl⟩ | ⟨i, hsel, he⟩ | ⟨i, hi, he⟩ | ⟨_, _, -, -, rfl⟩ |
    ⟨rest, hin, rfl⟩
  · exact .inl rfl
  · exact (transition_of_selected hI.popped hsel he).imp id .inl
  · exact (transition_of_command hi he).imp id .inl
  · exact .inl rfl
  · exact .inr (.inr ⟨rfl, rest, hin⟩)

end Sys2Proof.Machine

end

/-! # Steps that are refused -/

section

namespace Sys2Proof.Machine

/-- CORE's turn is an operation it selects, or nothing to do. -/
theorem coreTurn_eq_run_or_settled (s : State) :
    (∃ i, encode i = .sequencer s.ph.code s.slot ∧ coreTurn s = .run i s) ∨ coreTurn s = .settled (.next s) := by
  cases hc : decode (.sequencer s.ph.code s.slot) with
  | ok i => exact .inl ⟨i, encode_of_decode hc, by simp only [coreTurn, hc]⟩
  | error _ => exact .inr (by simp only [coreTurn, hc])

/-- HOST's word is a command, or nothing to do (R35, R106). -/
theorem commandWrite_eq_run_or_settled (word : Word) (s : State) :
    (∃ i, (i = .cmdStart ∨ i = .cmdNext ∨ i = .cmdAbort) ∧ commandWrite word s = .run i s) ∨
    commandWrite word s = .settled (.next s) := by
  cases hc : decodeCommand word with
  | ok i => exact .inl ⟨i, decodeCommand_ok hc, by simp only [commandWrite, decode, hc]⟩
  | error _ => exact .inr (by simp only [commandWrite, decode, hc])

/-- What comes of the thing a step has fetched. -/
def Fetched.outcome : Fetched → Host.Outcome State Fault Refusal
  | .run i s => exec i s
  | .settled o => o

theorem step_eq_outcome (s : State) : step s = (fetch s).outcome := by
  cases hf : fetch s with
  | run i t => exact step_eq_of_fetch_run hf
  | settled o => exact step_eq_of_fetch_settled hf

/-- CORE's turn is never refused: it does not select DF.DEC. -/
theorem coreTurn_not_refused (s : State) (r : Refusal) : (coreTurn s).outcome ≠ .refused r := by
  intro h
  rcases coreTurn_eq_run_or_settled s with ⟨i, hsel, hc⟩ | hc <;> rw [hc] at h
  · obtain ⟨rfl, -⟩ := exec_refused h
    cases hsel
  · cases h

/-- A word HOST writes is never refused (R35, R236). -/
theorem commandWrite_not_refused (word : Word) (s : State) (r : Refusal) :
    (commandWrite word s).outcome ≠ .refused r := by
  intro h
  rcases commandWrite_eq_run_or_settled word s with ⟨i, hi, hc⟩ | hc <;> rw [hc] at h
  · obtain ⟨rfl, -⟩ := exec_refused h
    simp at hi
  · cases h

/-- The inputs that are refused, and when (R32, R74, R61; log entries 9, 13, 14). -/
theorem takeInput_refused {x : Input} {s : State} {r : Refusal} (h : (takeInput x s).outcome = .refused r) :
    (s.rdy = false ∧ ((∃ reg, x = .hostRead reg ∧ 16 ≤ reg.toNat ∧ reg.toNat ≤ 30) ∨ x = .hostRender)) ∨
    (s.running = true ∧ ∃ b e, x = .bind b e) ∨ (s.eos = true ∧ ∃ b, x = .deliver b) := by
  cases x with
  | core => exact absurd h (coreTurn_not_refused s r)
  | hostWrite reg v =>
    by_cases hreg : reg = 1
    · simp only [takeInput, hreg, if_true] at h
      exact absurd h (commandWrite_not_refused v s r)
    · simp only [takeInput, hreg, if_false, Fetched.outcome] at h
      cases h
  | hostRead reg =>
    rcases readReg_cases s reg with ⟨-, -, -, hv⟩ | ⟨hlow, hhigh, hp, -⟩ | ⟨-, v, hv⟩
    · simp only [takeInput, hv, Fetched.outcome] at h
      cases h
    · exact .inl ⟨by simp [State.rdy, hp], .inl ⟨reg, rfl, hlow, hhigh⟩⟩
    · simp only [takeInput, hv, Fetched.outcome] at h
      cases h
  | hostRender => exact .inl ⟨(exec_refused (i := .dfDec) h).2, .inr rfl⟩
  | bind b e =>
    rcases bindStream_cases b e s with ⟨hr, -⟩ | ⟨-, hb⟩
    · exact .inr (.inl ⟨(Bool.and_eq_true_iff.mp hr).1, b, e, rfl⟩)
    · simp only [takeInput, hb, Fetched.outcome] at h
      cases h
  | deliver b =>
    rcases deliverByte_cases b s with ⟨heos, -⟩ | ⟨-, hd⟩
    · exact .inr (.inr ⟨heos, b, rfl⟩)
    · simp only [takeInput, hd, Fetched.outcome] at h
      cases h
  | rst | endOfStream => cases h

/-- Settles O55: by the input the step takes. -/
theorem stepsAreRefusedOnlyOutsideTheDomain : Obligations.StepsAreRefusedOnlyOutsideTheDomain := by
  intro s r h
  rw [step_eq_outcome] at h
  rcases hin : s.inputs with _ | ⟨x, rest⟩
  · simp only [fetch, hin] at h
    exact absurd h (coreTurn_not_refused s r)
  · rw [fetch_of_inputs_cons hin] at h
    rcases takeInput_refused h with ⟨hr, ⟨reg, rfl, hreg⟩ | rfl⟩ | ⟨hr, b, e, rfl⟩ | ⟨heos, b, rfl⟩
    · exact .inl ⟨hr, .inl ⟨reg, rest, rfl, hreg⟩⟩
    · exact .inl ⟨hr, .inr ⟨rest, rfl⟩⟩
    · exact .inr (.inl ⟨hr, b, e, rest, rfl⟩)
    · exact .inr (.inr ⟨heos, b, rest, rfl⟩)

end Sys2Proof.Machine

end

/-! # Result registers and HOST's readings steer nothing

Every function on the way from `step` to an operation gives outcomes of one kind (`SameKind`) for two states that differ
in the results and in HOST's readings only (`State.withResults`). -/

section

namespace Sys2Proof.Machine

/-- `s` with other results, and other values that HOST has read and rendered. -/
def State.withResults (s : State) (res : Results) (hostData : Option RegValue)
    (decimals : Option (List Char × List Char)) : State :=
  { s with res := res, hostData := hostData, decimals := decimals }

/-- States that agree on the data path differ as `withResults` says (R28, R311). -/
theorem eq_withResults_of_agree {s t : State} (agree : agreeOnDataPath s t) :
    s = t.withResults s.res s.hostData s.decimals := agree

/-- Two outcomes of one kind: next states that agree on the data path, or the same fault or refusal. -/
inductive SameKind : Host.Outcome State Fault Refusal → Host.Outcome State Fault Refusal → Prop where
  | next {s t : State} (agree : agreeOnDataPath s t) : SameKind (.next s) (.next t)
  | fault (r : Fault) : SameKind (.fault r) (.fault r)
  | refused (r : Refusal) : SameKind (.refused r) (.refused r)

/-- A condition that both sides share chooses outcomes of one kind. -/
theorem SameKind.ite {c : Prop} [Decidable c] {a b a' b' : Host.Outcome State Fault Refusal} (ht : SameKind a a')
    (hf : SameKind b b') : SameKind (if c then a else b) (if c then a' else b') := by
  split
  · exact ht
  · exact hf

section

variable (s : State) (res : Results) (hostData : Option RegValue) (decimals : Option (List Char × List Char))

/-- A read does not look at the results (R62). -/
theorem memRead_withResults (n : Nat) : memRead n (s.withResults res hostData decimals) =
    ((memRead n s).1, (memRead n s).2.withResults res hostData decimals) := by
  rcases memRead_cases n s with ⟨hlen, h⟩ | ⟨hlen, heos, h⟩ | ⟨hlen, heos, h⟩
  · rw [h]
    exact memRead_full hlen
  · rw [h]
    exact memRead_short hlen heos
  · rw [h]
    exact memRead_waiting hlen heos

/-- A write of HOST does not look at the results (R34). -/
theorem writeReg_withResults (reg : BitVec 6) (v : Word) : writeReg reg v (s.withResults res hostData decimals) =
    (writeReg reg v s).withResults res hostData decimals := by
  by_cases hw : reg = 0 ∧ s.ph = .idle
  · rw [hw.1, writeReg_ctrl_of_idle hw.2]
    exact writeReg_ctrl_of_idle (s := s.withResults res hostData decimals) hw.2
  · exact (if_neg hw).trans (congrArg (State.withResults · res hostData decimals) (if_neg hw).symm)

/-- An operation does the same with other results (R28, R311). -/
theorem exec_sameKind (i : Instr) : SameKind (exec i (s.withResults res hostData decimals)) (exec i s) := by
  cases i with
  | frMark =>
    simp only [exec, execFrMark, memRead_withResults]
    rcases memRead Config.markLen s with ⟨_ | _ | _, t⟩
    · exact .next rfl
    · exact .ite (.next rfl) (.next rfl)
    · exact .next rfl
  | frSize =>
    simp only [exec, execFrSize, memRead_withResults]
    rcases memRead Config.sizeLen s with ⟨_ | _ | _, t⟩
    · exact .ite (.next rfl) (.next rfl)
    · exact .next rfl
    · exact .next rfl
  | frData =>
    have hsize : (s.withResults res hostData decimals).sizeInt = s.sizeInt := rfl
    simp only [exec, execFrData, hsize, memRead_withResults]
    refine .ite (.fault _) ?_
    rcases memRead s.sizeInt.toNat s with ⟨_ | _ | _, t⟩ <;> exact .next rfl
  | hdChk => exact .ite (.next rfl) (.next rfl)
  | dfTgt => exact .ite (.next rfl) (.ite (.next rfl) (.next rfl))
  | dfPdif => exact .ite (.next rfl) (.next rfl)
  | dfBdif => exact .ite (.next rfl) (.next rfl)
  | dfDec => exact .ite (.next rfl) (.refused _)
  | cmdStart => exact .ite (.next rfl) (.next rfl)
  | cmdNext => exact .ite (.next rfl) (.next rfl)
  | cmdAbort => exact .ite (.next rfl) (.next rfl)
  | frNext | hdVer | hdPrev | hdMrkl | hdTime | hdBits | hdNonce | hdPay | dfUnpk | dfHex | outEmit => exact .next rfl

/-- CORE's turn is of the same kind with other results. -/
theorem coreTurn_sameKind :
    SameKind (coreTurn (s.withResults res hostData decimals)).outcome (coreTurn s).outcome := by
  have hplace : (s.withResults res hostData decimals).ph = s.ph ∧ (s.withResults res hostData decimals).slot = s.slot :=
    ⟨rfl, rfl⟩
  unfold coreTurn
  rw [hplace.1, hplace.2]
  cases decode (.sequencer s.ph.code s.slot) with
  | ok i => exact exec_sameKind s res hostData decimals i
  | error _ => exact .next rfl

/-- HOST's word is of the same kind with other results. -/
theorem commandWrite_sameKind (word : Word) :
    SameKind (commandWrite word (s.withResults res hostData decimals)).outcome (commandWrite word s).outcome := by
  unfold commandWrite
  cases decode (.command word) with
  | ok i => exact exec_sameKind s res hostData decimals i
  | error _ => exact .next rfl

/-- A HOST read answers in the same states; only the value can differ, and it is kept where nothing reads it. -/
theorem hostRead_sameKind (reg : BitVec 6) :
    SameKind (takeInput (.hostRead reg) (s.withResults res hostData decimals)).outcome
      (takeInput (.hostRead reg) s).outcome := by
  by_cases hready : reg.toNat < 16 ∨ 30 < reg.toNat ∨ s.rdy = true
  · obtain ⟨v, hv⟩ := exists_readReg (s := s) hready
    obtain ⟨v', hv'⟩ := exists_readReg (s := s.withResults res hostData decimals) hready
    simp only [takeInput, hv, hv', Fetched.outcome]
    exact .next rfl
  · have hrdy : s.rdy = false := Bool.eq_false_iff.mpr fun h => hready (.inr (.inr h))
    have hv : readReg s reg = _ := readReg_of_not_rdy (by omega) (by omega) hrdy
    have hv' : readReg (s.withResults res hostData decimals) reg = _ := readReg_of_not_rdy (by omega) (by omega) hrdy
    simp only [takeInput, hv, hv', Fetched.outcome]
    exact .refused _

/-- An input does the same with other results. -/
theorem takeInput_sameKind (x : Input) :
    SameKind (takeInput x (s.withResults res hostData decimals)).outcome (takeInput x s).outcome := by
  cases x with
  | core => exact coreTurn_sameKind s res hostData decimals
  | hostWrite reg v =>
    by_cases hreg : reg = 1
    · simp only [takeInput, hreg, if_true]
      exact commandWrite_sameKind s res hostData decimals v
    · simp only [takeInput, hreg, if_false, Fetched.outcome]
      rw [writeReg_withResults]
      exact .next rfl
  | hostRead reg => exact hostRead_sameKind s res hostData decimals reg
  | hostRender => exact exec_sameKind s res hostData decimals .dfDec
  | rst => exact .next rfl
  | bind b e => exact .ite (.refused _) (.next rfl)
  | deliver b => exact .ite (.refused _) (.next rfl)
  | endOfStream => exact .next rfl

/-- A step is of the same kind with other results (R311). -/
theorem step_sameKind : SameKind (step (s.withResults res hostData decimals)) (step s) := by
  rw [step_eq_outcome, step_eq_outcome]
  cases hin : s.inputs with
  | nil =>
    have hin' : (s.withResults res hostData decimals).inputs = [] := hin
    simp only [fetch, hin, hin']
    exact coreTurn_sameKind s res hostData decimals
  | cons x rest =>
    have hin' : (s.withResults res hostData decimals).inputs = x :: rest := hin
    rw [fetch_of_inputs_cons hin, fetch_of_inputs_cons hin']
    exact takeInput_sameKind { s with inputs := rest } res hostData decimals x

end

/-- Settles O58: two such states differ as `withResults` says, and their steps are of one kind. -/
theorem resultRegistersNeverFeedBack : Obligations.ResultRegistersNeverFeedBack := by
  intro s t agree
  have same : SameKind (step s) (step t) := by
    rw [eq_withResults_of_agree agree]
    exact step_sameKind t s.res s.hostData s.decimals
  refine ⟨fun s' h => ?_, fun r h => ?_, fun r h => ?_⟩ <;> rw [h] at same
  · generalize step t = o at same ⊢
    cases same with
    | next agree' => exact ⟨_, rfl, agree'⟩
  · generalize step t = o at same ⊢
    cases same
    rfl
  · generalize step t = o at same ⊢
    cases same
    rfl

end Sys2Proof.Machine

end

/-! # STREAM's bytes, the fault no run reaches, and machines side by side -/

section

namespace Sys2Proof.Machine

/-! ## Reads -/

/-- Settles O44: the two outcomes of `MemRead` after which CORE goes on, and the first of them for 0 bytes. -/
theorem readsAreFullOrConsumeTheRest : Obligations.ReadsAreFullOrConsumeTheRest := by
  intro n s
  refine ⟨fun hfull => ?full, memRead_short, memRead_full (Nat.zero_le _)⟩
  case full =>
    exact ⟨s.unread.take n, s.unread.drop n, (List.take_append_drop n s.unread).symm, List.length_take_of_le hfull,
      memRead_full hfull⟩

section

variable {s : State}

theorem exec_frMark_waiting (h : s.unread.length < 4) (he : s.eos = false) : exec .frMark s = .next s := by
  simp only [exec, execFrMark, Config.markLen, memRead_waiting h he]

theorem exec_frSize_waiting (h : s.unread.length < 4) (he : s.eos = false) : exec .frSize s = .next s := by
  simp only [exec, execFrSize, Config.sizeLen, memRead_waiting h he]

theorem exec_frData_waiting (hz : ¬ s.sizeInt < 0) (h : s.unread.length < s.sizeInt.toNat) (he : s.eos = false) :
    exec .frData s = .next s := by
  simp only [exec, execFrData, hz, if_false, memRead_waiting h he]

end

/-- Settles O14. A `SIZE` above the number of bytes offered is not negative, so FR.DATA reads. -/
theorem readsWaitForStream : Obligations.ReadsWaitForStream := by
  refine fun s he => ⟨fun h => ⟨exec_frMark_waiting h he, exec_frSize_waiting h he⟩, fun h => ?data⟩
  case data => exact exec_frData_waiting (by omega) (by omega) he

/-! ## The frame of the stream -/

section

variable {s t : State} {i : Instr}

/-- An operation that does not set `POS` to 0 adds to it the number of bytes it consumes (R21, R73). -/
theorem exec_consumes (hstart : i ≠ .cmdStart) (habort : i ≠ .cmdAbort) (h : exec i s = .next t) :
    ∃ k, t.pos = s.pos + k ∧ t.unread = s.unread.drop k := by
  cases effect_of_exec h with
  | framed | trapped => exact ⟨_, rfl, rfl⟩
  | formatted => exact ⟨0, writeTargetHex_pos s, writeTargetHex_unread s⟩
  | started => exact absurd rfl hstart
  | aborted => exact absurd rfl habort
  | unchanged | latched | committed | rendered | disposed => exact ⟨0, rfl, rfl⟩

/-- An operation outside the FRAMER's reads consumes nothing, and only CMD.START and CMD.ABORT move `POS` (R73). -/
theorem exec_keeps_stream (hi : i ≠ .frMark ∧ i ≠ .frSize ∧ i ≠ .frData ∧ i ≠ .cmdStart ∧ i ≠ .cmdAbort)
    (h : exec i s = .next t) : t.pos = s.pos ∧ t.unread = s.unread := by
  cases i with
  | frMark | frSize | frData | cmdStart | cmdAbort => simp at hi
  | hdChk => rcases execHdChk_cases h with ⟨-, rfl⟩ | ⟨-, rfl⟩ <;> exact ⟨rfl, rfl⟩
  | dfTgt => rcases execDfTgt_cases h with ⟨-, -, _, -, rfl⟩ | ⟨-, rfl⟩ | ⟨-, rfl⟩ <;> exact ⟨rfl, rfl⟩
  | dfPdif => rcases execDfPdif_cases h with ⟨-, _, _, -, -, rfl⟩ | ⟨-, rfl⟩ <;> exact ⟨rfl, rfl⟩
  | dfBdif => rcases execDfBdif_cases h with ⟨-, _, _, -, -, rfl⟩ | ⟨-, rfl⟩ <;> exact ⟨rfl, rfl⟩
  | cmdNext => rcases execCmdNext_cases h with ⟨-, rfl⟩ | ⟨-, rfl⟩ <;> exact ⟨rfl, rfl⟩
  | dfDec =>
    obtain ⟨-, rfl⟩ := execDfDec_cases h
    exact ⟨rfl, rfl⟩
  | dfHex =>
    cases h
    exact ⟨writeTargetHex_pos s, writeTargetHex_unread s⟩
  | frNext | hdVer | hdPrev | hdMrkl | hdTime | hdBits | hdNonce | hdPay | dfUnpk | outEmit =>
    cases h
    exact ⟨rfl, rfl⟩

/-- Where CMD.START and CMD.ABORT have an effect, `POS` is 0 after it and the unread bytes are the same (R233, R235). -/
theorem exec_recounts_stream (hi : i = .cmdStart ∨ i = .cmdAbort) (h : exec i s = .next t) :
    t = s ∨ (t.pos = 0 ∧ t.unread = s.unread) := by
  rcases hi with rfl | rfl
  · rcases execCmdStart_cases h with ⟨-, rfl⟩ | ⟨-, rfl⟩
    · exact .inr ⟨rfl, rfl⟩
    · exact .inl rfl
  · rcases execCmdAbort_cases h with ⟨-, rfl⟩ | ⟨-, rfl⟩
    · exact .inr ⟨rfl, rfl⟩
    · exact .inl rfl

/-- The same unread bytes counted from 0 (R73, R308). -/
theorem streamByte_recounted (hp : t.pos = 0) (hu : t.unread = s.unread) (a : Nat) :
    t.streamByte a = s.streamByte (s.pos + a) := by
  simp [State.streamByte, hp, hu]

end

/-- Settles O43: an operation consumes bytes in order, counts them anew, or leaves them. -/
theorem streamBytesAreReadOnceAndNeverWritten : Obligations.StreamBytesAreReadOnceAndNeverWritten := by
  intro i s t h a
  refine ⟨fun hi => ?reads, fun hi => ?recounts, fun hi => ?keeps⟩
  case reads =>
    obtain ⟨hstart, habort⟩ : i ≠ .cmdStart ∧ i ≠ .cmdAbort := by rcases hi with rfl | rfl | rfl <;> simp
    obtain ⟨k, hpos, hunread⟩ := exec_consumes hstart habort h
    exact ⟨by omega, streamByte_after hpos hunread, streamByte_before t⟩
  case recounts => exact (exec_recounts_stream hi h).imp id fun ⟨hpos, hunread⟩ => streamByte_recounted hpos hunread a
  case keeps =>
    obtain ⟨hpos, hunread⟩ := exec_keeps_stream hi h
    exact streamByte_congr hpos hunread a

/-! ## The fault of a negative length -/

section

variable {s : State} {r : Fault}

/-- The only operation that ends in a fault is FR.DATA with a negative `SIZE` (R62, log entry 11). -/
theorem exec_fault {i : Instr} (h : exec i s = .fault r) : i = .frData ∧ s.sizeInt < 0 := by
  cases i with
  | frData =>
    by_cases hz : s.sizeInt < 0
    · exact ⟨rfl, hz⟩
    · simp only [exec, execFrData, hz, if_false] at h
      split at h <;> cases h
  | frMark | frSize | dfPdif | dfBdif | dfDec | hdChk | dfTgt | cmdStart | cmdNext | cmdAbort =>
    simp only [exec, execFrMark, execFrSize, execDfPdif, execDfBdif, execDfDec, execHdChk, execDfTgt, execCmdStart,
      execCmdNext, execCmdAbort] at h
    repeat' split at h
    all_goals cases h
  | frNext | hdVer | hdPrev | hdMrkl | hdTime | hdBits | hdNonce | hdPay | dfUnpk | dfHex | outEmit => cases h

/-- CORE performs FR.DATA in DATA only, where FR.SIZE has found `SIZE` not negative (R132). -/
theorem coreTurn_not_fault (hI : s.Inv) : (coreTurn s).outcome ≠ .fault r := by
  intro h
  rcases coreTurn_eq_run_or_settled s with ⟨i, hsel, hc⟩ | hc <;> rw [hc] at h
  · obtain ⟨rfl, hneg⟩ := exec_fault h
    obtain ⟨-, hsize⟩ := hI.afterSize (phase_of_selected (p := .data) rfl hsel)
    omega
  · cases h

/-- HOST cannot select FR.DATA (R106). -/
theorem commandWrite_not_fault (word : Word) : (commandWrite word s).outcome ≠ .fault r := by
  intro h
  rcases commandWrite_eq_run_or_settled word s with ⟨i, hi, hc⟩ | hc <;> rw [hc] at h
  · obtain ⟨rfl, -⟩ := exec_fault h
    simp at hi
  · cases h

/-- No input ends in a fault: an agent beside CORE performs no read (R10, R60). -/
theorem takeInput_not_fault (hI : s.Inv) (x : Input) : (takeInput x s).outcome ≠ .fault r := by
  intro h
  cases x with
  | core => exact coreTurn_not_fault hI h
  | hostWrite reg v =>
    by_cases hreg : reg = 1
    · simp only [takeInput, hreg, if_true] at h
      exact commandWrite_not_fault v h
    · simp only [takeInput, hreg, if_false, Fetched.outcome] at h
      cases h
  | hostRead reg => cases hv : readReg s reg <;> simp only [takeInput, hv, Fetched.outcome] at h <;> cases h
  | hostRender => nomatch (exec_fault (i := .dfDec) h).1
  | bind b e =>
    rcases bindStream_cases b e s with ⟨-, hb⟩ | ⟨-, hb⟩ <;>
      simp only [takeInput, hb, Fetched.outcome] at h <;> cases h
  | deliver b =>
    rcases deliverByte_cases b s with ⟨-, hd⟩ | ⟨-, hd⟩ <;>
      simp only [takeInput, hd, Fetched.outcome] at h <;> cases h
  | rst | endOfStream => cases h

end

/-- Settles O54: by what the step fetches. -/
theorem safeStatesNeverFault : Obligations.SafeStatesNeverFault := by
  intro s r hI
  rw [step_eq_outcome]
  cases hin : s.inputs with
  | nil =>
    simp only [fetch, hin]
    exact coreTurn_not_fault hI
  | cons x rest =>
    rw [fetch_of_inputs_cons hin]
    exact takeInput_not_fault (hI.withAgents _ _ rest _ _) x

/-! ## Several machines -/

section

variable {j k : Nat} {b b' : List State}

/-- A step of machine `k` replaces its entry by the next state of that entry, and is no step at all where there is no
such entry (R75, R285). -/
theorem stepInstance_next_iff : stepInstance k b = .next b' ↔
    (b[k]? = none ∧ b' = b) ∨ ∃ s t, b[k]? = some s ∧ step s = .next t ∧ b' = b.set k t := by
  unfold stepInstance
  rcases b[k]? with _ | s
  · simp [eq_comm]
  · rcases hs : step s with t | r | r <;> simp [hs, eq_comm]

/-- A step of one machine leaves the others (R75, R285). -/
theorem stepInstance_getElem?_of_ne (hne : j ≠ k) (h : stepInstance j b = .next b') : b'[k]? = b[k]? := by
  rcases stepInstance_next_iff.mp h with ⟨-, rfl⟩ | ⟨_, _, -, -, rfl⟩
  · rfl
  · exact List.getElem?_set_ne hne

end

/-- Settles O59: each of the two finds its own entry as it was, and replacing two entries commutes. -/
theorem instanceStepsCommute : Obligations.InstanceStepsCommute := by
  intro j k b mid last hne hj hk
  have hmid : mid[k]? = b[k]? := stepInstance_getElem?_of_ne hne hj
  rcases stepInstance_next_iff.mp hk with ⟨hnone, rfl⟩ | ⟨s, s', hs, hstep, rfl⟩
  · exact ⟨b, stepInstance_next_iff.mpr (.inl ⟨hmid.symm.trans hnone, rfl⟩), hj⟩
  · have hfirst : stepInstance k b = .next (b.set k s') :=
      stepInstance_next_iff.mpr (.inr ⟨s, s', hmid.symm.trans hs, hstep, rfl⟩)
    have hbj : (b.set k s')[j]? = b[j]? := stepInstance_getElem?_of_ne hne.symm hfirst
    refine ⟨b.set k s', hfirst, stepInstance_next_iff.mpr ?_⟩
    rcases stepInstance_next_iff.mp hj with ⟨hnone, rfl⟩ | ⟨t, t', ht, htstep, rfl⟩
    · exact .inl ⟨hbj.trans hnone, rfl⟩
    · exact .inr ⟨t, t', hbj.trans ht, htstep, List.set_comm t' s' hne⟩

end Sys2Proof.Machine

end

/-! # The encodings

Bytes and numbers, the compact target, the header and the record frame: what each decoder gives on bytes written as an
append of its fields. The round trips are read off these equations. -/

section

namespace Sys2Proof

/-! ## Bytes and the numbers they encode -/

/-- `le_uint` of an append: the second part weighs `256` to the length of the first (R8). -/
theorem leUint_append (a b : List Byte) : leUint (a ++ b) = leUint a + 256 ^ a.length * leUint b := by
  induction a with
  | nil => simp [leUint]
  | cons x xs ih =>
    simp only [List.cons_append, leUint, ih, List.length_cons, Nat.pow_succ]
    ring

/-- Byte sequences of one length with the same number are the same (R8). -/
theorem leUint_injective {a b : List Byte} (hlen : a.length = b.length) (h : leUint a = leUint b) : a = b := by
  rw [← leBytes_leUint a, ← leBytes_leUint b, h, hlen]

theorem leWord_inj {a b : Bytes 4} : leWord a = leWord b ↔ a = b := by
  refine ⟨fun h => Vector.toList_inj.mp (leUint_injective (by simp) ?_), congrArg leWord⟩
  rw [← leWord_toNat, ← leWord_toNat, h]

/-- A register assembled from the bytes of a 32-bit number holds that number (R8, R101). -/
theorem leWord_leBytes_toNat {v : Nat} (h : v < 2 ^ 32) : (leWord (toBytes 4 (leBytes v 4))).toNat = v := by
  rw [leWord_toNat, toBytes_toList 4 _ (leBytes_length v 4), leUint_leBytes v 4 h]

/-- A byte register is what its content reads as. -/
theorem toBytes_eq_of_toList {n : Nat} {b : Bytes n} {l : List Byte} (h : b.toList = l) : toBytes n l = b := by
  subst h
  exact Vector.toList_inj.mp (toBytes_toList n _ Vector.length_toList)

/-- `le_sint32` of a number in the nonnegative half is that number (R8, R102). -/
theorem leSint32_leBytes {n : Nat} (h : n < 2 ^ 31) : leSint32 (leBytes n 4) = n := by
  rw [leSint32, leUint_leBytes n 4 (by omega), if_pos h]

/-- A size field that is not negative is the encoding of its value, which is below `2^31` (R93, R102). -/
theorem leBytes_leSint32 {b : List Byte} (hlen : b.length = 4) (h : ¬ leSint32 b < 0) :
    leBytes (leSint32 b).toNat 4 = b ∧ (leSint32 b).toNat < 2 ^ 31 := by
  have hlt := leUint_lt b
  rw [hlen] at hlt
  by_cases hhalf : leUint b < 2 ^ 31
  · have hval : (leSint32 b).toNat = leUint b := by rw [leSint32, if_pos hhalf, Int.toNat_natCast]
    exact ⟨by rw [hval, ← hlen, leBytes_leUint], by omega⟩
  · rw [leSint32, if_neg hhalf] at h
    omega

/-! ## Record frames -/

/-- Decoding of bytes that hold a marker and a size field: the size decides, and no marker is refused (R91, R93,
R94). -/
theorem decodeFrame_append {m z : List Byte} (hm : m.length = 4) (hz : z.length = 4) (b : List Byte) :
    decodeFrame (m ++ z ++ b) =
      if leSint32 z < 0 then .error .negSize
      else if b.length < (leSint32 z).toNat then .error .dataShort
      else .ok (⟨toBytes 4 m, b.take (leSint32 z).toNat⟩, b.drop (leSint32 z).toNat) := by
  have hmark : (m ++ z ++ b).take 4 = m := by rw [List.append_assoc, List.take_left' hm]
  have hsize : ((m ++ z ++ b).drop 4).take 4 = z := by
    rw [List.append_assoc, List.drop_left' hm, List.take_left' hz]
  have hrest : (m ++ z ++ b).drop 8 = b := List.drop_left' (by simp [hm, hz])
  have hlen : (m ++ z ++ b).length = 8 + b.length := by simp only [List.length_append, hm, hz]
  simp only [decodeFrame, hmark, hsize, hrest, hlen, Nat.add_sub_cancel_left]
  rw [if_neg (by omega), if_neg (by omega)]

/-- Bytes that decode to a frame begin with a marker and a size field (R93, R95). -/
theorem length_of_decodeFrame {b : List Byte} {x : Frame × List Byte} (h : decodeFrame b = .ok x) : 8 ≤ b.length := by
  unfold decodeFrame at h
  split at h
  · cases h
  · split at h
    · cases h
    · omega

/-- A frame decodes to itself and leaves what follows it (R91, R93). -/
theorem decodeFrame_encodeFrame {f : Frame} (rest : List Byte) (h : f.data.length < 2 ^ 31) :
    decodeFrame (encodeFrame f ++ rest) = .ok (f, rest) := by
  rw [encodeFrame, List.append_assoc _ f.data, decodeFrame_append (by simp) (by simp), leSint32_leBytes h,
    toBytes_eq_of_toList rfl]
  simp

/-- What decodes to a frame is the frame's encoding and the bytes left (R91, R93). -/
theorem eq_encodeFrame_of_decodeFrame {b rest : List Byte} {f : Frame} (h : decodeFrame b = .ok (f, rest)) :
    b = encodeFrame f ++ rest ∧ f.data.length < 2 ^ 31 := by
  have hlen := length_of_decodeFrame h
  obtain ⟨m, z, d, hm, hz, rfl⟩ : ∃ m z d : List Byte, m.length = 4 ∧ z.length = 4 ∧ b = m ++ z ++ d :=
    ⟨b.take 4, (b.drop 4).take 4, (b.drop 4).drop 4, by simp; omega, by simp; omega,
      by rw [List.append_assoc, List.take_append_drop, List.take_append_drop]⟩
  rw [decodeFrame_append hm hz] at h
  split at h
  · cases h
  next hneg =>
    split at h
    · cases h
    next hfull =>
      cases h
      obtain ⟨hsize, hlt⟩ := leBytes_leSint32 hz hneg
      have hdata : (d.take (leSint32 z).toNat).length = (leSint32 z).toNat := by
        rw [List.length_take]
        omega
      refine ⟨?_, by rwa [hdata]⟩
      simp only [encodeFrame, toBytes_toList 4 m hm, hdata, hsize, List.append_assoc, List.take_append_drop]

/-- Settles O6: the two directions, each from the decoder's equation on marker, size field and the bytes after them. -/
theorem recordFrameDecodeEncodeRoundTrip : Obligations.RecordFrameDecodeEncodeRoundTrip :=
  ⟨fun _ rest h => decodeFrame_encodeFrame rest h, fun _ _ _ h => eq_encodeFrame_of_decodeFrame h⟩

/-! ## Compact targets -/

/-- Every four bytes are the three of a mantissa and an exponent (R98). -/
theorem exists_toList_eq_append (b : Bytes 4) : ∃ (m : List Byte) (e : Byte), m.length = 3 ∧ b.toList = m ++ [e] :=
  ⟨b.toList.dropLast, b.toList.getLast (by simp), by simp,
    (List.dropLast_append_getLast _).symm⟩

section

variable {b : Bytes 4} {m : List Byte} {e : Byte}

/-- The exponent is the last byte and the mantissa the number of the first three (R98). -/
theorem decodeCompact_of_toList (hm : m.length = 3) (h : b.toList = m ++ [e]) :
    decodeCompact b = ⟨e, BitVec.ofNat 24 (leUint m)⟩ := by
  match m, hm with
  | [x, y, z], _ =>
    obtain rfl : b = #v[x, y, z, e] := Vector.toList_inj.mp h
    rfl

/-- The word of a compact target has the mantissa below its exponent (R99). -/
theorem leWord_toNat_of_toList (hm : m.length = 3) (h : b.toList = m ++ [e]) :
    (leWord b).toNat = leUint m + 2 ^ 24 * e.toNat := by
  rw [leWord_toNat, h, leUint_append, hm]
  simp [leUint]

end

theorem encodeCompact_toList (c : Compact) :
    (encodeCompact c).toList = leBytes c.mantissa.toNat 3 ++ [c.exponent] :=
  toBytes_toList 4 _ (by simp)

/-- Exponent and mantissa are slices of the word (R99). -/
theorem decodeCompact_eq_extractLsb (b : Bytes 4) :
    (decodeCompact b).exponent = (leWord b).extractLsb 31 24 ∧
    (decodeCompact b).mantissa = (leWord b).extractLsb 23 0 := by
  obtain ⟨m, e, hm, h⟩ := exists_toList_eq_append b
  have hword := leWord_toNat_of_toList hm h
  have hlt := leUint_lt m
  rw [hm] at hlt
  rw [decodeCompact_of_toList hm h]
  constructor <;> apply BitVec.eq_of_toNat_eq <;>
    simp only [BitVec.extractLsb_toNat, hword, BitVec.toNat_ofNat, Nat.shiftRight_eq_div_pow]
  · have := e.isLt
    omega
  · omega

/-- The encoder gives the wire bytes back (R98, R99). -/
theorem encodeCompact_decodeCompact (b : Bytes 4) : encodeCompact (decodeCompact b) = b := by
  obtain ⟨m, e, hm, h⟩ := exists_toList_eq_append b
  have hlt := leUint_lt m
  rw [hm] at hlt
  have hmant : leBytes (leUint m) 3 = m := hm ▸ leBytes_leUint m
  apply Vector.toList_inj.mp
  rw [encodeCompact_toList, decodeCompact_of_toList hm h, h, BitVec.toNat_ofNat, Nat.mod_eq_of_lt (by omega), hmant]

/-- Exponent and mantissa survive encoding and decoding (R98, R99). -/
theorem decodeCompact_encodeCompact (c : Compact) : decodeCompact (encodeCompact c) = c := by
  rw [decodeCompact_of_toList (leBytes_length _ 3) (encodeCompact_toList c), leUint_leBytes _ 3 c.mantissa.isLt,
    BitVec.ofNat_toNat, BitVec.setWidth_eq]

/-- Settles O7. -/
theorem compactTargetIsSlicesOfItsWord : Obligations.CompactTargetIsSlicesOfItsWord := by
  refine ⟨fun b => ?slices, decodeCompact_encodeCompact, by decide⟩
  case slices =>
    obtain ⟨hexp, hmant⟩ := decodeCompact_eq_extractLsb b
    exact ⟨hexp, hmant, encodeCompact_decodeCompact b⟩

/-! ## Block headers -/

/-- A field of an 80-byte buffer written as an append is the part at the field's offset (R7, R65). -/
theorem slice_toBytes_append {l pre mid post : List Byte} {o n : Nat} (hl : l.length = 80)
    (h : l = pre ++ (mid ++ post)) (ho : pre.length = o) (hn : mid.length = n) (inside : o + n ≤ 80) :
    slice (toBytes 80 l) o n inside = toBytes n mid := by
  refine (toBytes_eq_of_toList ?_).symm
  rw [slice_toList, toBytes_toList 80 l hl, h, List.drop_left' ho, List.take_left' hn]

/-- The six fields of a buffer written as the append of six parts of the fields' lengths (R96). -/
theorem decodeHeader_append {v p m t b n : List Byte} (hv : v.length = 4) (hp : p.length = 32) (hm : m.length = 32)
    (ht : t.length = 4) (hb : b.length = 4) (hn : n.length = 4) :
    decodeHeader (toBytes 80 (v ++ p ++ m ++ t ++ b ++ n)) =
      { version := leWord (toBytes 4 v), prevHash := toBytes 32 p, merkleRoot := toBytes 32 m
        timestamp := leWord (toBytes 4 t), bits := toBytes 4 b, nonce := leWord (toBytes 4 n) } := by
  have hl : (v ++ p ++ m ++ t ++ b ++ n).length = 80 := by simp [*]
  rw [decodeHeader,
    slice_toBytes_append hl (pre := []) (mid := v) (post := p ++ m ++ t ++ b ++ n) (by simp) List.length_nil hv,
    slice_toBytes_append hl (pre := v) (mid := p) (post := m ++ t ++ b ++ n) (by simp) hv hp,
    slice_toBytes_append hl (pre := v ++ p) (mid := m) (post := t ++ b ++ n) (by simp) (by simp [*]) hm,
    slice_toBytes_append hl (pre := v ++ p ++ m) (mid := t) (post := b ++ n) (by simp) (by simp [*]) ht,
    slice_toBytes_append hl (pre := v ++ p ++ m ++ t) (mid := b) (post := n) (by simp) (by simp [*]) hb,
    slice_toBytes_append hl (pre := v ++ p ++ m ++ t ++ b) (mid := n) (post := []) (by simp) (by simp [*]) hn]

theorem HeaderText.wellFormed_iff (h : HeaderText) : h.wellFormed = true ↔
    h.version < 2 ^ 32 ∧ h.time < 2 ^ 32 ∧ h.nonce < 2 ^ 32 ∧
      h.prev.length = 32 ∧ h.merkle.length = 32 ∧ h.bits.length = 4 := by
  simp [HeaderText.wellFormed, and_assoc]

/-- Settles O8: the expansion is an append of six parts of the fields' lengths. -/
theorem headerTextIsInverseOfFieldExtraction : Obligations.HeaderTextIsInverseOfFieldExtraction := by
  intro h hwf
  obtain ⟨hversion, htime, hnonce, hprev, hmerkle, hbits⟩ := h.wellFormed_iff.mp hwf
  refine ⟨by simp [HeaderText.expand, hprev, hmerkle, hbits], ?_⟩
  rw [HeaderText.expand, decodeHeader_append (by simp) hprev hmerkle (by simp) hbits (by simp)]
  exact ⟨leWord_leBytes_toNat hversion, toBytes_toList 32 _ hprev, toBytes_toList 32 _ hmerkle,
    leWord_leBytes_toNat htime, toBytes_toList 4 _ hbits, leWord_leBytes_toNat hnonce⟩

section

variable {h : Bytes 80} {i : Fin 80} {b : Byte} {o : Nat}

/-- A changed byte changes exactly the byte ranges that hold it (R7). -/
theorem slice_set_ne_iff {n : Nat} (hb : b ≠ h[i]) (inside : o + n ≤ 80) :
    slice (h.set i b) o n inside ≠ slice h o n inside ↔ o ≤ i.val ∧ i.val < o + n := by
  constructor
  · refine fun hne => by_contra fun hout => hne (Vector.ext fun k hk => ?_)
    rw [slice_getElem _ _ _ _ _ hk, slice_getElem _ _ _ _ _ hk, Vector.getElem_set_ne _ _ (by omega)]
  · rintro ⟨hlow, hhigh⟩ heq
    obtain ⟨k, hk⟩ := Nat.exists_eq_add_of_le hlow
    have hbyte : (slice (h.set i b) o n inside)[k] = (slice h o n inside)[k] := by rw [heq]
    simp only [slice_getElem, ← hk, Vector.getElem_set_self] at hbyte
    exact hb hbyte

/-- The same of a number assembled from four of the bytes (R101). -/
theorem leWord_slice_set_ne_iff (hb : b ≠ h[i]) (inside : o + 4 ≤ 80) :
    leWord (slice (h.set i b) o 4 inside) ≠ leWord (slice h o 4 inside) ↔ o ≤ i.val ∧ i.val < o + 4 := by
  rw [Ne, leWord_inj]
  exact slice_set_ne_iff hb inside

end

/-- Settles O9: each field is a byte range of R96 or the number of one. -/
theorem headerByteBelongsToOneField : Obligations.HeaderByteBelongsToOneField := by
  intro h i b hb
  refine ⟨(leWord_slice_set_ne_iff hb _).trans ?version, slice_set_ne_iff hb (by decide),
    slice_set_ne_iff hb (by decide), leWord_slice_set_ne_iff hb _, slice_set_ne_iff hb (by decide),
    (leWord_slice_set_ne_iff hb _).trans ?nonce⟩
  case version | nonce => omega

end Sys2Proof

namespace Sys2Proof.Machine

/-! ## Command words -/

/-- The words that decode to a command are the commands' own (R106). -/
theorem word_of_decodeCommand {word : Word} {i : Instr} (h : decodeCommand word = .ok i) :
    word = 1 ∨ word = 2 ∨ word = 3 := by
  have hword : encode i = .command word := encode_of_decode (x := .command word) h
  rcases decodeCommand_ok h with rfl | rfl | rfl
  · exact .inl (Selector.command.inj hword).symm
  · exact .inr (.inl (Selector.command.inj hword).symm)
  · exact .inr (.inr (Selector.command.inj hword).symm)

/-- A word that is no command leaves the state (R35, R106). -/
theorem commandWrite_of_no_command {word : Word} (h : ∀ i, decodeCommand word ≠ .ok i) (s : State) :
    commandWrite word s = .settled (.next s) := by
  cases hd : decodeCommand word with
  | ok i => exact absurd hd (h i)
  | error _ => simp only [commandWrite, decode, hd]

/-- Settles O3: a word that decodes is 1, 2 or 3. -/
theorem commandWordsAreComparedWhole : Obligations.CommandWordsAreComparedWhole := by
  refine ⟨rfl, rfl, rfl, fun word h1 h2 h3 => ?other⟩
  case other =>
    have hnone : ∀ i, decodeCommand word ≠ .ok i := by
      intro i hi
      rcases word_of_decodeCommand hi with h | h | h
      · exact h1 h
      · exact h2 h
      · exact h3 h
    exact ⟨hnone, commandWrite_of_no_command hnone⟩

end Sys2Proof.Machine

end

/-! # The operations of FRAMER

The equations of FR.MARK, FR.SIZE, FR.DATA and FR.NEXT per outcome stand above; here the states they lead to, for a
stream written out as the bytes read and the bytes left. -/

section

namespace Sys2Proof.Machine

/-! ## The states after a read -/

section

variable {s : State} {a b c d : Byte} {rest : List Byte}

theorem four_le_unread_length (h : s.unread = a :: b :: c :: d :: rest) : 4 ≤ s.unread.length := by
  simp [h]

/-- FR.MARK's registers for a marker written out (R131). -/
theorem afterMark_of_unread (h : s.unread = a :: b :: c :: d :: rest) :
    s.afterMark = { s with
      recStart := s.pos, marker := #v[a, b, c, d], pos := s.pos + 4, unread := rest, ph := .size, slot := 0 } := by
  have hmarker : toBytes 4 [a, b, c, d] = #v[a, b, c, d] := toBytes_eq_of_toList rfl
  simp [State.afterMark, setPhase, h, hmarker]

/-- FR.SIZE's registers for a size field written out (R132). -/
theorem sizeRead_of_unread (h : s.unread = a :: b :: c :: d :: rest) :
    s.sizeRead = { s with
      size := BitVec.ofInt 32 (leSint32 [a, b, c, d]), pos := s.pos + 4, unread := rest } := by
  simp [State.sizeRead, h]

/-- FR.DATA's registers for a stream that is the record's data and a rest (R133). -/
theorem afterData_of_append {data : List Byte} (h : s.unread = data ++ rest) (hsize : (data.length : Int) = s.sizeInt) :
    s.afterData = { s with
      len := s.size, hbuf := keepHeader data s.hbuf, pos := s.pos + data.length, unread := rest, ph := .hdec,
      slot := 0 } := by
  have hlen : s.sizeInt.toNat = data.length := by omega
  simp [State.afterData, setPhase, h, hlen]

/-- Nothing is consumed where nothing is left (R138). -/
theorem drained_of_unread_nil (h : s.unread = []) : s.drained = s := by
  rw [State.drained, h, List.length_nil, Nat.add_zero, ← h]

end

/-! ## The header buffer -/

section

variable {data : List Byte} {i : Nat}

/-- A byte that the data has is kept (R133). -/
theorem keepHeader_getElem_of_lt (old : Bytes 80) (hi : i < 80) (hd : i < data.length) :
    (keepHeader data old)[i] = data[i] := by
  rw [keepHeader_getElem, List.getElem?_eq_getElem hd, Option.getD_some]

/-- Past the data the buffer is as it was (R27, R133). -/
theorem keepHeader_getElem_of_le (old : Bytes 80) (hi : i < 80) (hd : data.length ≤ i) :
    (keepHeader data old)[i] = old[i] := by
  rw [keepHeader_getElem, List.getElem?_eq_none hd, Option.getD_none]

end

/-! ## The operations -/

/-- Settles O10: the three outcomes of the read of a marker. -/
theorem frMarkReadsMarkerOrEndsOrRaises : Obligations.FrMarkReadsMarkerOrEndsOrRaises := by
  refine ⟨fun s a b c d rest h => ⟨0, ?full⟩, fun s h he hloop => ⟨0, ?atEnd⟩, fun s h he hm => ⟨0, ?short⟩⟩
  case full => rw [exec_frMark_full (four_le_unread_length h), afterMark_of_unread h]
  case atEnd =>
    rw [exec_frMark_end he ⟨hloop, by simp [h]⟩, drained_of_unread_nil h]
    rfl
  case short =>
    refine exec_frMark_short he h fun ⟨hloop, hnil⟩ => ?_
    rcases hm with hne | hsingle
    · exact hne (List.length_eq_zero_iff.mp hnil)
    · exact Bool.false_ne_true (hloop.symm.trans hsingle)

/-- Settles O11: `SIZE` holds the signed number of the field, whose sign decides. -/
theorem frSizeReadsSignedSizeOrRaises : Obligations.FrSizeReadsSignedSizeOrRaises := by
  refine ⟨fun s a b c d rest h => ?full, fun s h he => ⟨0, exec_frSize_short he h⟩⟩
  case full =>
    have h4 := four_le_unread_length h
    have hfield : s.unread.take 4 = [a, b, c, d] := by simp [h]
    have hz : (BitVec.ofInt 32 (leSint32 [a, b, c, d])).toInt = leSint32 [a, b, c, d] := leSint32_toInt _ rfl
    refine ⟨_, hz, ?_⟩
    rw [hz, ← hfield]
    refine ⟨fun hpos => ⟨0, ?data⟩, fun hneg => ⟨0, ?negative⟩⟩
    case data =>
      rw [exec_frSize_full h4 (Int.not_lt.mpr hpos), sizeRead_of_unread h, hfield]
      rfl
    case negative =>
      rw [exec_frSize_negative h4 hneg, sizeRead_of_unread h, hfield]
      rfl

/-- Settles O12: the header buffer is `keepHeader` of the data. -/
theorem frDataKeepsHeaderBytesOrRaises : Obligations.FrDataKeepsHeaderBytesOrRaises := by
  refine ⟨fun s data rest hz h hsize => ?full, fun s h he => ⟨0, exec_frData_short he (by omega) (by omega)⟩⟩
  case full =>
    have hread : s.sizeInt.toNat ≤ s.unread.length := by
      rw [h, List.length_append]
      omega
    refine ⟨keepHeader data s.hbuf, fun i hi hd => keepHeader_getElem_of_lt _ hi hd,
      fun i hi hd => keepHeader_getElem_of_le _ hi hd, 0, ?_⟩
    rw [exec_frData_full (Int.not_lt.mpr hz) hread, afterData_of_append h hsize]

/-- FR.NEXT disposes of the record (R134). -/
theorem exec_frNext (s : State) : exec .frNext s = .next (disposeRecord s) := rfl

/-- Settles O13: the mode picks the phase after the record. -/
theorem frNextDisposesOfRecord : Obligations.FrNextDisposesOfRecord := by
  refine fun s => ⟨fun hloop => ⟨0, ?loop⟩, fun hsingle => ⟨0, ?single⟩⟩
  case loop =>
    rw [exec_frNext, disposeRecord, hloop]
    rfl
  case single =>
    rw [exec_frNext, disposeRecord, hsingle]
    rfl

end Sys2Proof.Machine

end

/-! # The header decoder

Each HDEC operation reads one byte range of the header buffer; the header is those ranges, one behind the other. -/

section

namespace Sys2Proof

/-! ## Byte ranges of the header buffer -/

/-- A byte range of the buffer and all that follows it are the buffer from the range's offset on (R7). -/
theorem slice_toList_append_drop (h : Bytes 80) (o n : Nat) (inside : o + n ≤ 80) :
    (slice h o n inside).toList ++ h.toList.drop (o + n) = h.toList.drop o := by
  rw [slice_toList, ← List.drop_drop, List.take_append_drop]

/-- A byte range that ends with the buffer is all of the buffer from its offset on (R7). -/
theorem slice_toList_of_end (h : Bytes 80) (o n : Nat) (hend : o + n = 80) :
    (slice h o n hend.le).toList = h.toList.drop o := by
  have hnil : h.toList.drop (o + n) = [] := by simp [hend]
  rw [← slice_toList_append_drop h o n hend.le, hnil, List.append_nil]

/-- `le_uint` of four bytes, written out (R8). -/
theorem leWord_toNat_eq_sum (b : Bytes 4) :
    (leWord b).toNat = b[0].toNat + 256 * b[1].toNat + 65536 * b[2].toNat + 16777216 * b[3].toNat := by
  obtain ⟨⟨l⟩, hl⟩ := b
  rw [leWord_toNat]
  match l, hl with
  | [b0, b1, b2, b3], _ =>
    simp [leUint]
    omega

/-! ## The round trip -/

/-- The bytes of the number of four bytes are those bytes (R8, R101). -/
theorem leBytes_leWord (b : Bytes 4) : leBytes (leWord b).toNat 4 = b.toList := by
  have h := leBytes_leUint b.toList
  rwa [Vector.length_toList, ← leWord_toNat] at h

theorem leWord_leBytes (v : Word) : leWord (toBytes 4 (leBytes v.toNat 4)) = v :=
  BitVec.eq_of_toNat_eq (leWord_leBytes_toNat v.isLt)

/-- The six byte ranges of R96 lie one behind the other and cover the header. -/
theorem encodeHeader_decodeHeader (h : Bytes 80) : encodeHeader (decodeHeader h) = h.toList := by
  simp only [encodeHeader, decodeHeader, leBytes_leWord, List.append_assoc]
  rw [slice_toList_of_end h 76 4 rfl, slice_toList_append_drop h 72 4, slice_toList_append_drop h 68 4,
    slice_toList_append_drop h 36 32, slice_toList_append_drop h 4 32, slice_toList_append_drop h 0 4, List.drop_zero]

theorem encodeHeader_length (f : HeaderFields) : (encodeHeader f).length = 80 := by
  simp [encodeHeader]

theorem decodeHeader_encodeHeader (f : HeaderFields) : decodeHeader (toBytes 80 (encodeHeader f)) = f := by
  rw [encodeHeader, decodeHeader_append (leBytes_length _ _) Vector.length_toList Vector.length_toList
    (leBytes_length _ _) Vector.length_toList (leBytes_length _ _)]
  simp only [leWord_leBytes, toBytes_eq_of_toList rfl]

/-- Settles O5: the fields are the six byte ranges of the header, and a 32-bit field loses no bit of its four bytes. -/
theorem headerDecodeEncodeRoundTrip : Obligations.HeaderDecodeEncodeRoundTrip :=
  ⟨encodeHeader_decodeHeader, fun f => ⟨encodeHeader_length f, decodeHeader_encodeHeader f⟩⟩

end Sys2Proof

namespace Sys2Proof.Machine

/-! ## The operations -/

/-- Settles O15: the comparison of `LEN` with 80 picks the outcome. -/
theorem hdChkRaisesBelowEightyBytes : Obligations.HdChkRaisesBelowEightyBytes :=
  ⟨fun s h => ⟨s.slot + 1, exec_hdChk_of_le h⟩, fun _ h => ⟨0, exec_hdChk_of_lt h⟩⟩

/-- A 32-bit field of the header buffer, byte by byte (R101). -/
theorem bufWord_toNat (s : State) (o : Nat) (inside : o + 4 ≤ 80) :
    (s.bufWord o inside).toNat = s.hbuf[o].toNat + 256 * s.hbuf[o + 1].toNat + 65536 * s.hbuf[o + 2].toNat
      + 16777216 * s.hbuf[o + 3].toNat := by
  simp only [State.bufWord, leWord_toNat_eq_sum, slice_getElem, Nat.add_zero]

/-- A byte field of the header buffer keeps the bytes' order (R111). -/
theorem bufBytes_getElem (s : State) (o n : Nat) (inside : o + n ≤ 80) (i : Nat) (hi : i < n) :
    (s.bufBytes o n inside)[i] = s.hbuf[o + i] :=
  slice_getElem s.hbuf o n inside i hi

/-- Settles O16: each operation latches the 32-bit field at its offset. -/
theorem headerIntegersAreLittleEndian : Obligations.HeaderIntegersAreLittleEndian := by
  refine fun s => ⟨⟨_, ?version, s.slot + 1, rfl⟩, ⟨_, ?timestamp, s.slot + 1, rfl⟩, ⟨_, ?nonce, s.slot + 1, rfl⟩⟩
  case version => exact bufWord_toNat s 0 (by decide)
  case timestamp => exact bufWord_toNat s 68 (by decide)
  case nonce => exact bufWord_toNat s 76 (by decide)

/-- Settles O17: each operation latches the byte range at its offset. -/
theorem headerBytesKeepWireOrder : Obligations.HeaderBytesKeepWireOrder := by
  refine fun s => ⟨⟨_, ?prevHash, s.slot + 1, rfl⟩, ⟨_, ?merkleRoot, s.slot + 1, rfl⟩, ⟨_, ?bits, s.slot + 1, rfl⟩⟩
  case prevHash => exact bufBytes_getElem s 4 32 (by decide)
  case merkleRoot => exact bufBytes_getElem s 36 32 (by decide)
  case bits => exact bufBytes_getElem s 72 4 (by decide)

/-- Settles O18: where `LEN` is at least 80 the difference is the natural one. -/
theorem hdPayCountsPayloadFromEighty : Obligations.HdPayCountsPayloadFromEighty :=
  fun s h => ⟨payloadLength s.len, payloadLength_toNat s.len h, 0, rfl⟩

end Sys2Proof.Machine

end

/-! # The difficulty operations

Each operation of DIFF is one equation for each of its outcomes; what is to say of them is arithmetic: the bytes of a
shifted mantissa, the quotient and the remainder of a division, the digits of a number in base 16. -/

section

namespace Sys2Proof.Machine

/-! ## Compact target to target -/

/-- The mantissa is its three bytes little-endian, the sign bit included (R190, R193). -/
theorem decodeCompact_mantissa_toNat (b : Bytes 4) :
    (decodeCompact b).mantissa.toNat = b[0].toNat + 256 * b[1].toNat + 65536 * b[2].toNat := by
  rw [(decodeCompact_toNat b).2]
  simp only [leUint]
  omega

/-- Settles O20: DF.UNPK is the decoder of the compact target. -/
theorem dfUnpkSplitsExponentAndMantissa : Obligations.DfUnpkSplitsExponentAndMantissa :=
  fun s => ⟨(decodeCompact s.w.bits).mantissa, decodeCompact_mantissa_toNat s.w.bits, s.slot + 1, rfl⟩

/-- Settles O21: one equation of DF.TGT for each range of the exponent. -/
theorem dfTgtAssemblesTargetOrRaises : Obligations.DfTgtAssemblesTargetOrRaises := by
  refine ⟨fun s hl hh => ?inRange, fun s h => ⟨0, exec_dfTgt_of_low h⟩, fun s h => ⟨0, exec_dfTgt_of_high h⟩⟩
  case inRange =>
    exact ⟨_, toNat_ofNat_256 _ (targetOf_lt _ _ hh s.w.mant.isLt), 0, exec_dfTgt_of_inRange hl hh⟩

/-- A base-256 digit of a number shifted left by `j` whole bytes: zero below the shift, and the number's own digits from
there on. -/
theorem mul_pow_div_pow_mod (m i j : Nat) :
    m * 256 ^ j / 256 ^ i % 256 = if i < j then 0 else m / 256 ^ (i - j) % 256 := by
  have hpos (k : Nat) : 0 < 256 ^ k := Nat.pow_pos (by decide)
  split_ifs with h
  · have hsplit : m * 256 ^ j = m * 256 ^ (j - i - 1) * 256 * 256 ^ i := by
      rw [Nat.mul_assoc, Nat.mul_assoc, ← Nat.pow_succ', ← Nat.pow_add]
      congr 2
      omega
    rw [hsplit, Nat.mul_div_cancel _ (hpos i), Nat.mul_mod_left]
  · have hsplit : 256 ^ i = 256 ^ (i - j) * 256 ^ j := by
      rw [← Nat.pow_add, Nat.sub_add_cancel (Nat.not_lt.mp h)]
    rw [hsplit, Nat.mul_div_mul_right _ _ (hpos j)]

/-- The bytes of a target, the most significant at position 0 (R204). -/
theorem target_byte {e m k : Nat} (hl : 3 ≤ e) (hh : e ≤ 32) (hm : m < 2 ^ 24) (hk : k < 32) :
    m * 256 ^ (e - 3) / 256 ^ (31 - k) % 256 =
      if k = 32 - e then m / 65536
      else if k = 33 - e then m / 256 % 256
      else if k = 34 - e then m % 256
      else 0 := by
  rw [mul_pow_div_pow_mod]
  by_cases hright : 31 - k < e - 3
  · simp (disch := omega) only [if_pos hright, if_neg]
  rw [if_neg hright]
  split_ifs with hfirst hsecond hthird
  · have hplace : 31 - k - (e - 3) = 2 := by omega
    rw [hplace]
    omega
  · have hplace : 31 - k - (e - 3) = 1 := by omega
    rw [hplace, Nat.pow_one]
  · have hplace : 31 - k - (e - 3) = 0 := by omega
    rw [hplace, Nat.pow_zero, Nat.div_one]
  · have hleft : 256 ^ 3 ≤ 256 ^ (31 - k - (e - 3)) := Nat.pow_le_pow_right (by decide) (by omega)
    rw [Nat.div_eq_of_lt (hm.trans_le hleft)]

/-- Settles O22: the target is the shifted mantissa, and its bytes are read off. -/
theorem targetHoldsMantissaBytesByExponent : Obligations.TargetHoldsMantissaBytesByExponent := by
  intro s t hl hh h
  obtain ⟨-, -, v, hv, rfl⟩ | ⟨hlow, -⟩ | ⟨hhigh, -⟩ := execDfTgt_cases h
  · have hshift : 2 ^ (8 * (s.w.exp.toNat - 3)) = 256 ^ (s.w.exp.toNat - 3) := Nat.pow_mul 2 8 _
    refine ⟨?shift, by omega, fun k hk => ?bytes⟩
    case shift => rw [Nat.shiftLeft_eq, hshift, setPhase_w, hv]
    case bytes => rw [setPhase_w, hv, target_byte hl hh s.w.mant.isLt hk]
  · omega
  · omega

/-! ## Quotients and remainders -/

theorem exec_dfBdif_of_zero {s : State} (h : s.w.target.toNat = 0) :
    exec .dfBdif s = .next (takeError .divBdif (s.recStart + 80) s) :=
  if_pos h

/-- Settles O23: the two equations of DF.PDIF. -/
theorem dfPdifDividesGenesisTargetExactly : Obligations.DfPdifDividesGenesisTargetExactly := by
  refine ⟨fun s h => ?divides, fun s h => ⟨0, exec_dfPdif_of_zero (congrArg BitVec.toNat h)⟩⟩
  case divides =>
    have hne : s.w.target.toNat ≠ 0 := BitVec.toNat_ne_iff_ne.mpr h
    obtain ⟨hq, hr⟩ := divmod_registers Config.genesisTarget s.w.target hne
    exact ⟨_, _, hq.trans genesisTarget_toNat, hr, 0, exec_dfPdif_of_ne hne⟩

/-- Settles O24: the two equations of DF.BDIF; where it divides it ends in OUT.EMIT's commit (R230). -/
theorem dfBdifDividesTruncatedTargetAndEmits : Obligations.DfBdifDividesTruncatedTargetAndEmits := by
  refine ⟨fun s h => ?divides, fun s h => ⟨0, exec_dfBdif_of_zero (congrArg BitVec.toNat h)⟩⟩
  case divides =>
    have hne : s.w.target.toNat ≠ 0 := BitVec.toNat_ne_iff_ne.mpr h
    have hexec := exec_dfBdif_of_ne hne
    obtain ⟨-, q, r, hqr, hr, ht⟩ | ⟨hzero, -⟩ := execDfBdif_cases hexec
    · rw [ht] at hexec
      exact ⟨q, r, resultOf { s.w with bq := q, br := r } s.recStart, hqr.trans genesisTargetTruncated_toNat, hr,
        rfl, rfl, rfl, rfl, rfl, rfl, rfl, ⟨0, hexec⟩, hexec.symm⟩
    · exact absurd hzero hne

/-- A quotient is at most its numerator, equal to it for divisor 1, and zero exactly below the divisor (R208). -/
theorem quotient_bounds {q r a d : Nat} (hqr : q * d + r = a) (hr : r < d) :
    q ≤ a ∧ (d = 1 → q = a) ∧ (q = 0 ↔ a < d) := by
  have hd : 0 < d := Nat.zero_lt_of_lt hr
  have hsum : r + d * q = a := by rw [← hqr, Nat.mul_comm, Nat.add_comm]
  obtain ⟨rfl, -⟩ := (Nat.div_mod_unique hd).mpr ⟨hsum, hr⟩
  exact ⟨Nat.div_le_self a d, fun h => by rw [h, Nat.div_one], Nat.div_eq_zero_iff_lt hd⟩

/-- Settles O25: the bounds of a division, for the two numerators. -/
theorem quotientAndRemainderBounds : Obligations.QuotientAndRemainderBounds := by
  refine ⟨fun s t h he => ?pdif, fun s t h he => ?bdif⟩
  case pdif =>
    obtain ⟨-, q, r, hqr, hr, rfl⟩ | ⟨hzero, -⟩ := execDfPdif_cases he
    · obtain ⟨hle, hone, hlt⟩ := quotient_bounds hqr hr
      rw [genesisTarget_toNat] at hle hone
      exact ⟨hle, fun h1 => hone (congrArg BitVec.toNat h1), hr, BitVec.toNat_inj.symm.trans hlt⟩
    · exact absurd (BitVec.eq_of_toNat_eq hzero) h
  case bdif =>
    obtain ⟨-, q, r, hqr, hr, rfl⟩ | ⟨hzero, -⟩ := execDfBdif_cases he
    · obtain ⟨hle, -, hlt⟩ := quotient_bounds hqr hr
      rw [genesisTargetTruncated_toNat] at hle
      exact ⟨hle, hr, BitVec.toNat_inj.symm.trans hlt⟩
    · exact absurd (BitVec.eq_of_toNat_eq hzero) h

/-- Settles O57: the invariant says it of the latches, and a held result is the latches' record. -/
theorem heldResultRatiosAreExact : Obligations.HeldResultRatiosAreExact := by
  intro s hI hp
  have hprogress : s.progress = 12 := by simp only [State.progress, hp]
  obtain ⟨hpq, hpr⟩ := hI.pdifficulty (by omega)
  obtain ⟨hbq, hbr⟩ := hI.bdifficulty (by omega)
  have hpayload := hI.payload (by omega)
  have hchecked := hI.checked (by omega)
  rw [hI.result hp]
  refine ⟨hpq, hpr, hbq, hbr, ?difference, rfl, hI.bits (by omega), rfl, ?payload⟩
  case difference => simp only [resultOf, hpq, hbq, Nat.reducePow, Nat.reduceMul, Nat.reduceSub]
  case payload => simp only [resultOf]; omega

/-! ## The text of a target -/

/-- A digit of the text, most significant first (R200). -/
theorem targetText_digit (c : HexCase) (t : Word256) (i : Nat) (hi : i < 64) :
    (targetText c t)[2 + i] = hexDigit c (t.toNat / 16 ^ (63 - i) % 16) := by
  have hpow : 2 ^ (4 * (63 - i)) = 16 ^ (63 - i) := Nat.pow_mul 2 4 _
  have hzero : ¬ 2 + i = 0 := by omega
  have hone : ¬ 2 + i = 1 := by omega
  rw [targetText_getElem, if_neg hzero, if_neg hone, Nat.add_sub_cancel_left, Nat.shiftRight_eq_div_pow, hpow]

/-- Settles O26: DF.HEX writes the target's text. -/
theorem dfHexWritesSixtyFourDigits : Obligations.DfHexWritesSixtyFourDigits :=
  fun s => ⟨targetText Config.hexCase s.w.target, targetText_getElem _ _ 0 (by decide),
    targetText_getElem _ _ 1 (by decide), targetText_digit _ _, rfl⟩

/-- The last `n` hex digits of `v`, most significant first. -/
def hexDigits (c : HexCase) (v : Nat) : Nat → List Byte
  | 0 => []
  | n + 1 => hexDigit c (v / 16 ^ n % 16) :: hexDigits c v n

@[simp] theorem hexDigits_length (c : HexCase) (v n : Nat) : (hexDigits c v n).length = n := by
  induction n with
  | zero => rfl
  | succ n ih => simp [hexDigits, ih]

theorem hexDigits_getElem (c : HexCase) (v n i : Nat) (h : i < (hexDigits c v n).length) :
    (hexDigits c v n)[i] = hexDigit c (v / 16 ^ (n - 1 - i) % 16) := by
  induction n generalizing i with
  | zero => simp at h
  | succ n ih =>
    cases i with
    | zero => rfl
    | succ i =>
      simp only [hexDigits, List.getElem_cons_succ, ih]
      congr 4
      omega

/-- The text of a target is `0x` and its 64 digits (R200). -/
theorem targetText_toList (c : HexCase) (t : Word256) :
    (targetText c t).toList = 0x30 :: 0x78 :: hexDigits c t.toNat 64 := by
  apply List.ext_getElem
  · simp
  · intro i hi _
    have h66 : i < 66 := by simpa using hi
    rw [Vector.getElem_toList]
    match i with
    | 0 => exact targetText_getElem c t 0 h66
    | 1 => exact targetText_getElem c t 1 h66
    | i + 2 =>
      simp only [List.getElem_cons_succ, hexDigits_getElem, Nat.reduceSub]
      simpa only [Nat.add_comm 2 i] using targetText_digit c t i (by omega)

/-- A hex digit of either case reads back as its value (R200). -/
theorem hexDigitValue_hexDigit (c : HexCase) : ∀ d < 16, hexDigitValue (hexDigit c d) = some d := by
  cases c <;> decide

/-- The last `n` hex digits of `v` read back as `v` modulo `16^n`. -/
theorem hexValue_hexDigits (c : HexCase) (v n acc : Nat) :
    hexValue acc (hexDigits c v n) = some (acc * 16 ^ n + v % 16 ^ n) := by
  induction n generalizing acc with
  | zero => simp [hexDigits, hexValue, Nat.mod_one]
  | succ n ih =>
    have hdigit := hexDigitValue_hexDigit c (v / 16 ^ n % 16) (Nat.mod_lt _ (by decide))
    simp only [hexDigits, hexValue, hdigit, ih, Nat.mod_pow_succ]
    congr 1
    ring

/-- A text denotes what its digits after `0x` do (R200). -/
theorem hexTextValue_eq_hexValue (digits : List Byte) : hexTextValue (0x30 :: 0x78 :: digits) = hexValue 0 digits := rfl

/-- Settles O27: the 64 digits read back as the target, which has no more. -/
theorem targetTextDenotesTarget : Obligations.TargetTextDenotesTarget := by
  intro c t
  have hlt : t.toNat < 16 ^ 64 := t.isLt
  rw [targetText_toList, hexTextValue_eq_hexValue, hexValue_hexDigits, Nat.zero_mul, Nat.zero_add, Nat.mod_eq_of_lt hlt]

end Sys2Proof.Machine

end

/-! # Decimal texts

A ratio with a finite expansion has one with at most `log2 d` places, which is as far as `decimalPlaces` looks; the
plain numeral with those places reads back as the ratio. -/

section

namespace Sys2Proof.Machine

/-! ## How many places a finite expansion needs -/

/-- Of the powers of ten that clear the denominator the one with `log2 d` zeros is enough: taking out of `d` a factor
that it shares with 10 costs one zero, and at least halves `d` (R201). -/
theorem dvd_mul_ten_pow_log2 {n d k : Nat} (hd : 0 < d) (h : d ∣ n * 10 ^ k) : d ∣ n * 10 ^ d.log2 := by
  induction d using Nat.strong_induction_on with
  | _ d ih =>
    by_cases hcop : d.Coprime 10
    · exact Dvd.dvd.mul_right ((hcop.pow_right k).dvd_of_dvd_mul_right h) _
    · obtain ⟨e, he⟩ := Nat.gcd_dvd_left d 10
      have hg : 2 ≤ d.gcd 10 := by
        have : 0 < d.gcd 10 := Nat.gcd_pos_of_pos_left 10 hd
        have : d.gcd 10 ≠ 1 := hcop
        omega
      have hepos : 0 < e := Nat.pos_of_ne_zero (by rintro rfl; omega)
      have htwice : 2 * e ≤ d := he ▸ Nat.mul_le_mul_right e hg
      have hlog : e.log2 + 1 ≤ d.log2 := by
        rw [← Nat.log2_two_mul hepos.ne', Nat.le_log2 hd.ne']
        exact (Nat.log2_self_le (by omega)).trans htwice
      have hrest : e ∣ n * 10 ^ e.log2 := ih e (by omega) hepos ((Dvd.intro_left _ he.symm).trans h)
      calc d = d.gcd 10 * e := he
        _ ∣ 10 * (n * 10 ^ e.log2) := Nat.mul_dvd_mul (Nat.gcd_dvd_right d 10) hrest
        _ = n * 10 ^ (e.log2 + 1) := by ring
        _ ∣ n * 10 ^ d.log2 := Nat.mul_dvd_mul_left n (Nat.pow_dvd_pow 10 hlog)

/-- The places found clear the denominator. -/
theorem dvd_of_decimalPlaces {n d k : Nat} (h : decimalPlaces n d = some k) : d ∣ n * 10 ^ k :=
  Nat.dvd_of_mod_eq_zero (by simpa using List.find?_some h)

/-- The places of a finite expansion are found. -/
theorem exists_decimalPlaces {n d k : Nat} (hd : 0 < d) (h : d ∣ n * 10 ^ k) : ∃ j, decimalPlaces n d = some j := by
  rw [← Option.isSome_iff_exists, decimalPlaces, List.find?_isSome]
  exact ⟨d.log2, List.mem_range.mpr d.log2.lt_succ_self,
    by simpa using Nat.mod_eq_zero_of_dvd (dvd_mul_ten_pow_log2 hd h)⟩

/-! ## Reading decimal digits -/

theorem isDigit_digitChar : ∀ d < 10, (Nat.digitChar d).isDigit = true := by decide

theorem digitChar_toNat : ∀ d < 10, (Nat.digitChar d).toNat - '0'.toNat = d := by decide

/-- Digits that follow others are read after them. -/
theorem readDigits_append (a b : List Char) (acc : Nat) :
    readDigits acc (a ++ b) = (readDigits acc a).bind fun v => readDigits v b := by
  induction a generalizing acc with
  | nil => rfl
  | cons x xs ih =>
    simp only [List.cons_append, readDigits, ih]
    split_ifs <;> rfl

@[simp] theorem fixedDigits_length (k m : Nat) : (fixedDigits k m).length = k := by
  induction k generalizing m with
  | zero => rfl
  | succ k ih => simp [fixedDigits, ih]

theorem isDigit_of_mem_fixedDigits {k m : Nat} {c : Char} (h : c ∈ fixedDigits k m) : c.isDigit = true := by
  induction k generalizing m with
  | zero => cases h
  | succ k ih =>
    rcases List.mem_append.mp h with hrest | hlast
    · exact ih hrest
    · rw [List.mem_singleton.mp hlast]
      exact isDigit_digitChar _ (Nat.mod_lt m (by decide))

/-- The last `k` decimal digits of `m` read back as `m` modulo `10^k`. -/
theorem readDigits_fixedDigits (k m acc : Nat) :
    readDigits acc (fixedDigits k m) = some (acc * 10 ^ k + m % 10 ^ k) := by
  induction k generalizing m with
  | zero => simp [fixedDigits, readDigits, Nat.mod_one]
  | succ k ih =>
    have hlt : m % 10 < 10 := Nat.mod_lt m (by decide)
    have hmod : m % 10 ^ (k + 1) = m % 10 + 10 * (m / 10 % 10 ^ k) := by
      rw [Nat.pow_succ', Nat.mod_mul]
    simp only [fixedDigits, readDigits_append, ih, Option.bind_some, readDigits, isDigit_digitChar _ hlt, if_true,
      digitChar_toNat _ hlt, hmod]
    congr 1
    ring

/-! ## The value of a plain numeral -/

section

variable {whole fraction : List Char}

theorem ne_point_of_isDigit {c : Char} (h : c.isDigit = true) : (c != '.') = true := by
  rw [bne_iff_ne]
  rintro rfl
  exact absurd h (by decide)

/-- A numeral without a point is its digits' number. -/
theorem decimalValue_of_no_point (hne : whole ≠ []) (hdigits : ∀ c ∈ whole, c.isDigit = true) :
    decimalValue whole = (readDigits 0 whole).map fun v => (v, 0) := by
  have hpoint : ∀ c ∈ whole, (c != '.') = true := fun c hc => ne_point_of_isDigit (hdigits c hc)
  have htake : whole.takeWhile (· != '.') = whole := List.takeWhile_eq_self_iff.mpr hpoint
  have hdrop : whole.dropWhile (· != '.') = [] := List.dropWhile_eq_nil_iff.mpr hpoint
  obtain ⟨x, xs, rfl⟩ := List.exists_cons_of_ne_nil hne
  simp only [decimalValue, htake, hdrop]

/-- A numeral with a point is the number of all its digits, and how many stand after the point. -/
theorem decimalValue_of_point (hne : whole ≠ []) (hdigits : ∀ c ∈ whole, c.isDigit = true) (hfraction : fraction ≠ []) :
    decimalValue (whole ++ '.' :: fraction) =
      (readDigits 0 (whole ++ fraction)).map fun v => (v, fraction.length) := by
  have hpoint : ∀ c ∈ whole, (c != '.') = true := fun c hc => ne_point_of_isDigit (hdigits c hc)
  have htake : (whole ++ '.' :: fraction).takeWhile (· != '.') = whole := by
    rw [List.takeWhile_append_of_pos hpoint]
    simp
  have hdrop : (whole ++ '.' :: fraction).dropWhile (· != '.') = '.' :: fraction := by
    rw [List.dropWhile_append_of_pos hpoint]
    simp
  obtain ⟨x, xs, rfl⟩ := List.exists_cons_of_ne_nil hne
  obtain ⟨y, ys, rfl⟩ := List.exists_cons_of_ne_nil hfraction
  simp only [decimalValue, htake, hdrop]

end

/-- All the digits of the whole part: it has no more than the logarithm says. -/
theorem readDigits_wholePart (w : Nat) : readDigits 0 (fixedDigits (Nat.log 10 w + 1) w) = some w := by
  rw [readDigits_fixedDigits, Nat.zero_mul, Nat.zero_add, Nat.mod_eq_of_lt (Nat.lt_pow_succ_log_self (by decide) w)]

/-- The digits before and after the point, read as one number. -/
theorem readDigits_wholePart_append (m k : Nat) :
    readDigits 0 (fixedDigits (Nat.log 10 (m / 10 ^ k) + 1) (m / 10 ^ k) ++ fixedDigits k (m % 10 ^ k)) = some m := by
  rw [readDigits_append, readDigits_wholePart, Option.bind_some, readDigits_fixedDigits, Nat.mod_mod, Nat.div_add_mod']

/-- The plain numeral of `n/d` with `k` places reads back as `n * 10^k / d` units of the last place. -/
theorem decimalValue_plainDecimal (n d k : Nat) : decimalValue (plainDecimal n d k) = some (n * 10 ^ k / d, k) := by
  have hne (w : Nat) : fixedDigits (Nat.log 10 w + 1) w ≠ [] := List.ne_nil_of_length_pos (by simp)
  have hdigits (w : Nat) : ∀ c ∈ fixedDigits (Nat.log 10 w + 1) w, c.isDigit = true :=
    fun _ => isDigit_of_mem_fixedDigits
  unfold plainDecimal
  cases k with
  | zero =>
    simp only [if_true, List.append_nil, decimalValue_of_no_point (hne _) (hdigits _), readDigits_wholePart,
      Option.map_some, Nat.pow_zero, Nat.div_one]
  | succ k =>
    have hfraction (f : Nat) : fixedDigits (k + 1) f ≠ [] := List.ne_nil_of_length_pos (by simp)
    simp only [Nat.succ_ne_zero, if_false, decimalValue_of_point (hne _) (hdigits _) (hfraction _),
      readDigits_wholePart_append, Option.map_some, fixedDigits_length]

/-- The plain numeral with places that clear the denominator denotes the ratio (R198, R201). -/
theorem denotes_plainDecimal {n d k : Nat} (h : d ∣ n * 10 ^ k) : denotes (plainDecimal n d k) n d = true := by
  simp only [denotes, decimalValue_plainDecimal, beq_iff_eq]
  exact Nat.div_mul_cancel h

/-- Where the expansion is finite the renderer's text or the plain numeral denotes the ratio (R201). -/
theorem denotes_decRender {n d k : Nat} (h : decimalPlaces n d = some k) : denotes (decRender n d) n d = true := by
  simp only [decRender, h]
  split_ifs with hraw
  · exact hraw
  · exact denotes_plainDecimal (dvd_of_decimalPlaces h)

/-- Settles O29: `decimalPlaces` finds the places of every finite expansion. -/
theorem finiteExpansionsAreRenderedExactly : Obligations.FiniteExpansionsAreRenderedExactly := by
  intro n d k hd h
  obtain ⟨j, hj⟩ := exists_decimalPlaces hd h
  exact denotes_decRender hj

end Sys2Proof.Machine

end

/-! # HOST's commands and the commit of a result

A command is one equation where it is accepted and one where it is ignored. -/

section

namespace Sys2Proof.Machine

/-! ## The commands -/

section

variable {s : State}

/-- CMD.START where it is accepted (R233). -/
theorem exec_cmdStart_of_idle (h : s.ph = .idle) :
    exec .cmdStart s = .next (setPhase .mark { s with pos := 0, recIdx := 0, recStart := 0 }) :=
  if_pos h

/-- CMD.START where it is ignored (R233, R236). -/
theorem exec_cmdStart_of_ne_idle (h : s.ph ≠ .idle) : exec .cmdStart s = .next s := if_neg h

/-- Where CMD.NEXT is accepted (R234). -/
theorem acceptsNext_iff : s.acceptsNext = true ↔ s.ph = .emit ∨ (s.ph = .fault ∧ s.term = false) := by
  simp [State.acceptsNext]

/-- Where CMD.NEXT is ignored (R234, R236). -/
theorem acceptsNext_eq_false_iff : s.acceptsNext = false ↔ s.ph ≠ .emit ∧ (s.ph = .fault → s.term = true) := by
  simp [State.acceptsNext]

/-- CMD.NEXT where it is accepted (R234). -/
theorem exec_cmdNext_of_accepted (h : s.acceptsNext = true) : exec .cmdNext s = .next (disposeRecord s) := if_pos h

/-- CMD.NEXT where it is ignored (R236). -/
theorem exec_cmdNext_of_ignored (h : s.acceptsNext = false) : exec .cmdNext s = .next s :=
  if_neg (Bool.eq_false_iff.mp h)

/-- CMD.ABORT where it has an effect (R235). -/
theorem exec_cmdAbort_of_effect (h : s.abortTakesEffect = true) : exec .cmdAbort s = .next (restoreReset s) := if_pos h

/-- CMD.ABORT where it has none (R235, R236). -/
theorem exec_cmdAbort_of_no_effect (h : s.abortTakesEffect = false) : exec .cmdAbort s = .next s :=
  if_neg (Bool.eq_false_iff.mp h)

/-- After a record's disposal neither a result nor an error is held (R134, R272). -/
theorem disposeRecord_ph_ne (s : State) : (disposeRecord s).ph ≠ .emit ∧ (disposeRecord s).ph ≠ .fault := by
  rw [disposeRecord_ph]
  cases s.single <;> simp

/-- CMD.NEXT leaves the phases in which it is accepted (R234). -/
theorem disposeRecord_ph_ne_of_acceptsNext (h : s.acceptsNext = true) : (disposeRecord s).ph ≠ s.ph := by
  obtain ⟨hemit, hfault⟩ := disposeRecord_ph_ne s
  rcases acceptsNext_iff.mp h with hp | ⟨hp, -⟩
  · rwa [hp]
  · rwa [hp]

/-- CMD.ABORT has no effect in IDLE, the phase it leads to (R235). -/
theorem ne_idle_of_abortTakesEffect (h : s.abortTakesEffect = true) : s.ph ≠ .idle := by
  intro hp
  simp [State.abortTakesEffect, hp] at h

end

/-- Settles O31: the two equations of CMD.START. -/
theorem cmdStartBeginsRunFromIdle : Obligations.CmdStartBeginsRunFromIdle :=
  ⟨fun _ hp => ⟨0, exec_cmdStart_of_idle hp⟩, fun _ => exec_cmdStart_of_ne_idle⟩

/-- Settles O32: where it is accepted CMD.NEXT disposes of the record, as FR.NEXT does. -/
theorem cmdNextPerformsFrNextWhereAccepted : Obligations.CmdNextPerformsFrNextWhereAccepted := by
  refine ⟨fun s hp => ?accepted, fun s hemit hfault => ?ignored⟩
  case accepted =>
    have hexec := exec_cmdNext_of_accepted (acceptsNext_iff.mpr hp)
    exact ⟨⟨0, hexec⟩, hexec.trans (exec_frNext s).symm⟩
  case ignored => exact exec_cmdNext_of_ignored (acceptsNext_eq_false_iff.mpr ⟨hemit, hfault⟩)

/-- Settles O34: `acceptsCommand` is the guard of each command, whose effect leaves the phases of its guard. -/
theorem unacceptedCommandsAreIgnored : Obligations.UnacceptedCommandsAreIgnored := by
  rintro s i (rfl | rfl | rfl)
  · refine ⟨fun h => exec_cmdStart_of_ne_idle (beq_eq_false_iff_ne.mp h), fun h => ?_⟩
    have hp : s.ph = .idle := beq_iff_eq.mp h
    exact ⟨_, exec_cmdStart_of_idle hp, by simp [hp]⟩
  · exact ⟨exec_cmdNext_of_ignored, fun h => ⟨_, exec_cmdNext_of_accepted h, disposeRecord_ph_ne_of_acceptsNext h⟩⟩
  · exact ⟨exec_cmdAbort_of_no_effect, fun h => ⟨_, exec_cmdAbort_of_effect h, (ne_idle_of_abortTakesEffect h).symm⟩⟩

/-! ## The commit of a result -/

/-- Settles O30: the committed registers are `resultOf` the latches, and DF.BDIF's equation for a non-zero target ends
in the commit. -/
theorem outEmitCommitsEveryResultRegister : Obligations.OutEmitCommitsEveryResultRegister := by
  intro s
  refine ⟨resultOf s.w s.recStart, ⟨0, rfl⟩, rfl, rfl, rfl, rfl, rfl, ?bitsU32, rfl, rfl, ?targetHex, rfl, rfl, rfl, rfl,
    rfl, rfl, rfl, ?bdif⟩
  case bitsU32 => exact leWord_toNat_eq_sum s.w.bits
  case targetHex => exact targetTextDenotesTarget Config.hexCase s.w.target
  case bdif => exact fun h => ⟨_, _, exec_dfBdif_of_ne (BitVec.toNat_ne_iff_ne.mpr h)⟩

end Sys2Proof.Machine

end

/-! # Trap entry and the terminal error

Each cause of R261 has one operation that raises it and one position. An operation that leads to FAULT raises such an
error and has changed nothing else but the stream and `SIZE`; the four error registers are read off that. -/

section

namespace Sys2Proof.Machine

/-! ## Trap entry -/

section

variable {s t : State} {i : Instr} {c : Cause} {errPos : Nat}

/-- The table of R261 and R266: the operation that raises a cause, and the `ERR_POS` it gives, from the registers before
the operation. -/
inductive Raises (s : State) : Instr → Cause → Nat → Prop where
  | markShort : Raises s .frMark .markShort s.pos
  | sizeShort : Raises s .frSize .sizeShort s.pos
  | negSize : Raises s .frSize .negSize s.pos
  | dataShort : Raises s .frData .dataShort s.pos
  | truncated : Raises s .hdChk .truncated (s.recStart + 8)
  | expLow : Raises s .dfTgt .expLow (s.recStart + 80)
  | expHigh : Raises s .dfTgt .expHigh (s.recStart + 80)
  | divPdif : Raises s .dfPdif .divPdif (s.recStart + 80)
  | divBdif : Raises s .dfBdif .divBdif (s.recStart + 80)

/-- `t` is `s` after a trap by operation `i`, which may have consumed bytes and written `SIZE` before (R132, R270). -/
def Trapped (s : State) (i : Instr) (t : State) : Prop :=
  ∃ c errPos unread pos size, Raises s i c errPos ∧
    t = takeError c errPos { s with unread := unread, pos := pos, size := size }

/-- An error that is raised is trapped, whatever has been read. -/
theorem Raises.trapped (h : Raises s i c errPos) (unread : List Byte) (pos : Nat) (size : Word) :
    Trapped s i (takeError c errPos { s with unread := unread, pos := pos, size := size }) :=
  ⟨c, errPos, unread, pos, size, h, rfl⟩

/-- An operation that leads to FAULT from another phase has trapped (R260, R270). -/
theorem trapped_of_exec (h : exec i s = .next t) (hs : s.ph ≠ .fault) (ht : t.ph = .fault) : Trapped s i t := by
  cases i with
  | frMark =>
    rcases execFrMark_cases h with ⟨-, rfl⟩ | ⟨-, -, -, rfl⟩ | ⟨-, -, -, rfl⟩ | ⟨-, -, rfl⟩
    · cases ht
    · cases ht
    · exact Raises.markShort.trapped _ _ _
    · exact absurd ht hs
  | frSize =>
    rcases execFrSize_cases h with ⟨_, -, -, ⟨-, rfl⟩ | ⟨-, rfl⟩⟩ | ⟨-, -, rfl⟩ | ⟨-, -, rfl⟩
    · cases ht
    · exact Raises.negSize.trapped _ _ _
    · exact Raises.sizeShort.trapped _ _ _
    · exact absurd ht hs
  | frData =>
    rcases execFrData_cases h with ⟨-, ⟨-, rfl⟩ | ⟨-, -, rfl⟩ | ⟨-, -, rfl⟩⟩
    · cases ht
    · exact Raises.dataShort.trapped _ _ _
    · exact absurd ht hs
  | hdChk =>
    rcases execHdChk_cases h with ⟨-, rfl⟩ | ⟨-, rfl⟩
    · exact absurd ht hs
    · exact Raises.truncated.trapped _ _ _
  | dfTgt =>
    rcases execDfTgt_cases h with ⟨-, -, _, -, rfl⟩ | ⟨-, rfl⟩ | ⟨-, rfl⟩
    · cases ht
    · exact Raises.expLow.trapped _ _ _
    · exact Raises.expHigh.trapped _ _ _
  | dfPdif =>
    rcases execDfPdif_cases h with ⟨-, _, _, -, -, rfl⟩ | ⟨-, rfl⟩
    · cases ht
    · exact Raises.divPdif.trapped _ _ _
  | dfBdif =>
    rcases execDfBdif_cases h with ⟨-, _, _, -, -, rfl⟩ | ⟨-, rfl⟩
    · cases ht
    · exact Raises.divBdif.trapped _ _ _
  | cmdStart =>
    rcases execCmdStart_cases h with ⟨-, rfl⟩ | ⟨-, rfl⟩
    · cases ht
    · exact absurd ht hs
  | cmdNext =>
    rcases execCmdNext_cases h with ⟨-, rfl⟩ | ⟨-, rfl⟩
    · exact absurd ht (disposeRecord_ph_ne s).2
    · exact absurd ht hs
  | cmdAbort =>
    rcases execCmdAbort_cases h with ⟨-, rfl⟩ | ⟨-, rfl⟩
    · cases ht
    · exact absurd ht hs
  | dfDec =>
    obtain ⟨-, rfl⟩ := execDfDec_cases h
    exact absurd ht hs
  | frNext =>
    cases h
    exact absurd ht (disposeRecord_ph_ne s).2
  | hdPay | outEmit =>
    cases h
    cases ht
  | dfHex =>
    cases h
    exact absurd ((writeTargetHex_ph s).symm.trans ht) hs
  | hdVer | hdPrev | hdMrkl | hdTime | hdBits | hdNonce | dfUnpk =>
    cases h
    exact absurd ht hs

/-- A framing error is at `POS` before the read (R266). -/
theorem Raises.errPos_of_framing (h : Raises s i c errPos) (hi : i = .frSize ∨ i = .frData) : errPos = s.pos := by
  cases h <;> simp at hi ⊢

/-- A cause is terminal exactly when it is MalformedStream, whose code is 1 (R260). -/
theorem Cause.terminal_iff (c : Cause) : c.terminal = true ↔ c.code = 1 := beq_iff_eq

end

/-- Settles O48: the registers of a trap by the table of causes. -/
theorem trapEntryWritesErrorRegisters : Obligations.TrapEntryWritesErrorRegisters := by
  intro i s t h hs ht
  obtain ⟨c, errPos, unread, pos, size, hraises, rfl⟩ := trapped_of_exec h hs ht
  refine ⟨⟨c, rfl, rfl, rfl⟩, rfl, c.terminal_iff, rfl, rfl, rfl, rfl, rfl, rfl, rfl, rfl, rfl,
    ?registers, fun hI hp hi => ?inSize, fun hI hp hi => ?inData,
    fun reg hlow hhigh => readReg_of_not_rdy hlow hhigh rfl⟩
  case registers => cases hraises <;> simp [Cause.code, Cause.sub]
  case inSize => exact (hraises.errPos_of_framing (.inl hi)).trans (hI.afterMark hp)
  case inData => exact (hraises.errPos_of_framing (.inr hi)).trans (hI.afterSize hp).1

/-! ## The terminal error -/

section

variable {s t : State}

/-- The word of a command that leaves a terminal error is CMD.ABORT's, and it leads to IDLE (R273). -/
theorem exec_command_of_terminal {word : Word} {i : Instr} (hd : decodeCommand word = .ok i) (h : exec i s = .next t)
    (hp : s.ph = .fault) (hterm : s.term = true) : t.ph = .fault ∨ (t.ph = .idle ∧ word = 3) := by
  have hword : encode i = .command word := encode_of_decode (x := .command word) hd
  rcases decodeCommand_ok hd with rfl | rfl | rfl
  · rcases execCmdStart_cases h with ⟨hidle, -⟩ | ⟨-, rfl⟩
    · cases hp.symm.trans hidle
    · exact .inl hp
  · rcases execCmdNext_cases h with ⟨haccepted, -⟩ | ⟨-, rfl⟩
    · simp [State.acceptsNext, hp, hterm] at haccepted
    · exact .inl hp
  · rcases execCmdAbort_cases h with ⟨-, rfl⟩ | ⟨-, rfl⟩
    · exact .inr ⟨rfl, (Selector.command.inj hword).symm⟩
    · exact .inl hp

end

/-- Settles O51: CORE has no operation in FAULT, and of HOST's words only CMD.ABORT's has an effect in a terminal one. -/
theorem terminalErrorEndsOnlyByAbortOrReset : Obligations.TerminalErrorEndsOnlyByAbortOrReset := by
  intro s t h hp hterm
  have hwait : s.popped.ph.isRun = false := by simp [hp, Phase.isRun]
  rcases step_next_cases h with rfl | ⟨i, hcore, -⟩ | ⟨word, i, rest, hin, hd, he⟩ | ⟨_, _, -, hidle, -⟩ |
    ⟨_, _, _, -, -, rfl⟩ | ⟨_, -, he⟩ | ⟨rest, hin, rfl⟩ | ⟨_, _, _, -, -, rfl⟩ | ⟨_, _, -, -, rfl⟩ | ⟨_, -, rfl⟩
  · exact .inl hp
  · exact absurd (encode_of_coreTurn hcore) (not_selected_of_wait hwait)
  · refine (exec_command_of_terminal hd he hp hterm).imp id fun ⟨ht, hword⟩ => ⟨ht, .inl ⟨rest, ?_⟩⟩
    rw [hin, hword]
  · cases hp.symm.trans hidle
  · exact .inl hp
  · obtain ⟨hemit, -⟩ := execDfDec_cases he
    cases hp.symm.trans hemit
  · exact .inr ⟨rfl, .inr ⟨rest, hin⟩⟩
  · exact .inl hp
  · exact .inl hp
  · exact .inl hp

end Sys2Proof.Machine

end

/-! # A held error

In FAULT only CMD.NEXT, CMD.ABORT and reset reach CORE's error registers, and each of the three clears them on its way
out of the phase. -/

section

namespace Sys2Proof.Machine

/-- In FAULT a command does nothing, or leaves the phase with `ERR_*` cleared (R236, R272). -/
theorem exec_command_of_fault {s t : State} {i : Instr} (hp : s.ph = .fault)
    (hi : i = .cmdStart ∨ i = .cmdNext ∨ i = .cmdAbort) (h : exec i s = .next t) :
    t = s ∨ (t.ph ≠ .fault ∧ t.err = ErrorRegs.none) := by
  rcases hi with rfl | rfl | rfl
  · rcases execCmdStart_cases h with ⟨hidle, -⟩ | ⟨-, rfl⟩
    · cases hp.symm.trans hidle
    · exact .inl rfl
  · rcases execCmdNext_cases h with ⟨-, rfl⟩ | ⟨-, rfl⟩
    · exact .inr ⟨(disposeRecord_ph_ne s).2, rfl⟩
    · exact .inl rfl
  · rcases execCmdAbort_cases h with ⟨-, rfl⟩ | ⟨-, rfl⟩
    · exact .inr ⟨nofun, rfl⟩
    · exact .inl rfl

/-- Settles O50: CORE has no operation in FAULT, so no trap is taken over a held error; what leaves the phase clears
it. -/
theorem heldErrorIsNeverOverwritten : Obligations.HeldErrorIsNeverOverwritten := by
  intro s t h hp
  have hwait : s.popped.ph.isRun = false := by simp [hp, Phase.isRun]
  rcases step_core_cases h with ⟨_, _, _, _, _, rfl⟩ | ⟨i, hsel, -⟩ | ⟨i, hi, he⟩ | ⟨_, _, -, hidle, -⟩ | ⟨_, -, rfl⟩
  · exact .inl ⟨hp, rfl, rfl⟩
  · exact absurd hsel (not_selected_of_wait hwait)
  · rcases exec_command_of_fault (s := s.popped) hp hi he with rfl | hleft
    · exact .inl ⟨hp, rfl, rfl⟩
    · exact .inr hleft
  · cases hp.symm.trans hidle
  · exact .inr ⟨nofun, rfl⟩

end Sys2Proof.Machine

end
